-- ==== Sys2Proof/Word.lean ====
section
/-! DEFINITION. The words, register numbers and coordinates of the CHIP-8 VM core (00_scope R8, R10, R11).
Every value of the instruction set is unsigned. -/

namespace Sys2Proof

/-- A byte: a general register, a timer, a byte of memory (R8, R20, R26, R28). -/
abbrev Byte := BitVec 8

/-- A 16-bit word: `I`, `pc`, a return address, an instruction word (R8, R22, R23, R24, R90). -/
abbrev Word := BitVec 16

/-- A 12-bit address immediate, `nnn` (R91). -/
abbrev Addr12 := BitVec 12

/-- Four bits of an instruction word (R10, R17). -/
abbrev Nibble := BitVec 4

/-- A general register's number, 0 to 15 (R20, R38). -/
abbrev Reg := Fin 16

/-- A logical key's number, 0x0 to 0xF (R31). -/
abbrev Key := Fin 16

/-- A pixel's place: column x (0 to 63) and row y (0 to 31) (R29, R30). -/
abbrev Pixel := Fin 64 × Fin 32

end Sys2Proof
end

