-- ==== Sys2Proof/Syntax.lean ====
section
/-! DEFINITION. The instructions: one constructor for each row of spec/opcode_table.json (30_encoding R95),
35 handlers and the no-op handler. A constructor also holds the bits of the word that its handler ignores
(R93, R95), so that no bit of an encoding is lost; no meaning reads them (log entry 7). -/

namespace Sys2Proof

inductive Instr where
  /-- 0x0?E0 CLS (R211); `ign` is w[11:8], not examined (R96) -/
  | cls (ign : Nibble)
  /-- 0x0?EE RET (R141); `ign` is w[11:8], not examined (R96) -/
  | ret (ign : Nibble)
  /-- 0x0nnn SYS nnn, every other word of family 0 (R125) -/
  | sys (nnn : Addr12)
  /-- 0x1nnn JP nnn (R142) -/
  | jp (nnn : Addr12)
  /-- 0x2nnn CALL nnn (R143) -/
  | call (nnn : Addr12)
  /-- 0x3xkk SE Vx, kk (R144) -/
  | seImm (x : Reg) (kk : Byte)
  /-- 0x4xkk SNE Vx, kk (R145) -/
  | sneImm (x : Reg) (kk : Byte)
  /-- 0x5xy? SE Vx, Vy (R146); `ign` is w[3:0], ignored (R100) -/
  | seReg (x y : Reg) (ign : Nibble)
  /-- 0x6xkk LD Vx, kk (R161) -/
  | ldImm (x : Reg) (kk : Byte)
  /-- 0x7xkk ADD Vx, kk (R162) -/
  | addImm (x : Reg) (kk : Byte)
  /-- 0x8xy0 LD Vx, Vy (R163) -/
  | ldReg (x y : Reg)
  /-- 0x8xy1 OR Vx, Vy (R164) -/
  | orReg (x y : Reg)
  /-- 0x8xy2 AND Vx, Vy (R165) -/
  | andReg (x y : Reg)
  /-- 0x8xy3 XOR Vx, Vy (R166) -/
  | xorReg (x y : Reg)
  /-- 0x8xy4 ADD Vx, Vy (R167) -/
  | addReg (x y : Reg)
  /-- 0x8xy5 SUB Vx, Vy (R168) -/
  | subReg (x y : Reg)
  /-- 0x8x?6 SHR Vx (R169); y is encoded and ignored -/
  | shr (x y : Reg)
  /-- 0x8xy7 SUBN Vx, Vy (R170) -/
  | subnReg (x y : Reg)
  /-- 0x8x?E SHL Vx (R171); y is encoded and ignored -/
  | shl (x y : Reg)
  /-- 0x9xy? SNE Vx, Vy (R147); `ign` is w[3:0], ignored (R100) -/
  | sneReg (x y : Reg) (ign : Nibble)
  /-- 0xAnnn LD I, nnn (R191) -/
  | ldI (nnn : Addr12)
  /-- 0xBnnn JP V0, nnn (R148) -/
  | jpV0 (nnn : Addr12)
  /-- 0xCxkk RND Vx, kk (R172) -/
  | rnd (x : Reg) (kk : Byte)
  /-- 0xDxyn DRW Vx, Vy, n (R212, R213) -/
  | drw (x y : Reg) (n : Nibble)
  /-- 0xEx9E SKP Vx (R231) -/
  | skp (x : Reg)
  /-- 0xExA1 SKNP Vx (R232) -/
  | sknp (x : Reg)
  /-- 0xFx07 LD Vx, DT (R233) -/
  | ldVxDt (x : Reg)
  /-- 0xFx0A LD Vx, K (R234) -/
  | ldVxK (x : Reg)
  /-- 0xFx15 LD DT, Vx (R235) -/
  | ldDtVx (x : Reg)
  /-- 0xFx18 LD ST, Vx (R236) -/
  | ldStVx (x : Reg)
  /-- 0xFx1E ADD I, Vx (R192) -/
  | addI (x : Reg)
  /-- 0xFx29 LD F, Vx (R193) -/
  | ldF (x : Reg)
  /-- 0xFx33 LD B, Vx (R194) -/
  | ldB (x : Reg)
  /-- 0xFx55 LD [I], Vx (R195) -/
  | ldMemVx (x : Reg)
  /-- 0xFx65 LD Vx, [I] (R196) -/
  | ldVxMem (x : Reg)
  /-- every word no row above matches: the no-op handler (R101, R124); `w` is the whole word -/
  | nop (w : Word)
deriving DecidableEq, Repr

end Sys2Proof
end

