-- ==== Sys2Proof/WellFormed.lean ====
section
/-! DEFINITION. Which instructions have a word of their own (30_encoding R96 to R101). Operand types hold
every other bound; two constructors need a check: a SYS must not be a word of CLS or RET, and a no-op must
hold a word that no handler matches. -/

namespace Sys2Proof

/-- The words of rule R101, which select the no-op handler: families 8, E and F with a second selector that
no handler has. -/
def isUnmatchedWord (w : Word) : Bool :=
  let f := w.extractLsb' 12 4
  let kk := w.extractLsb' 0 8
  let n := w.extractLsb' 0 4
  (f == 0x8#4 && !([0x0#4, 0x1#4, 0x2#4, 0x3#4, 0x4#4, 0x5#4, 0x6#4, 0x7#4, 0xE#4].contains n)) ||
  (f == 0xE#4 && !([0x9E#8, 0xA1#8].contains kk)) ||
  (f == 0xF#4 && !([0x07#8, 0x0A#8, 0x15#8, 0x18#8, 0x1E#8, 0x29#8, 0x33#8, 0x55#8, 0x65#8].contains kk))

/-- A 12-bit address whose word in family 0 is a SYS: its low byte is neither CLS's nor RET's (R96). -/
def isSysAddress (nnn : Addr12) : Bool :=
  nnn.extractLsb' 0 8 != 0xE0#8 && nnn.extractLsb' 0 8 != 0xEE#8

/-- The instruction is one the decoder can give. -/
def Instr.wellFormed : Instr → Bool
  | .sys nnn => isSysAddress nnn
  | .nop w => isUnmatchedWord w
  | .cls _ | .ret _ | .jp _ | .call _ | .seImm _ _ | .sneImm _ _ | .seReg _ _ _ | .ldImm _ _ | .addImm _ _
  | .ldReg _ _ | .orReg _ _ | .andReg _ _ | .xorReg _ _ | .addReg _ _ | .subReg _ _ | .shr _ _
  | .subnReg _ _ | .shl _ _ | .sneReg _ _ _ | .ldI _ | .jpV0 _ | .rnd _ _ | .drw _ _ _ | .skp _ | .sknp _
  | .ldVxDt _ | .ldVxK _ | .ldDtVx _ | .ldStVx _ | .addI _ | .ldF _ | .ldB _ | .ldMemVx _
  | .ldVxMem _ => true

end Sys2Proof
end

