-- ==== Sys2Proof/Decode.lean ====
section
/-! DEFINITION. Decoding and encoding (30_encoding R90 to R102): the fields of a word, the two-level decoder
(R94, R95), the encoder, the opcode table as match and mask (R102), and the byte order of a word (R64, R90). -/

namespace Sys2Proof

/-! ## Fields of a word (R16, R91, R92) -/

/-- The family, w[15:12]. -/
def fieldF (w : Word) : Nibble := w.extractLsb' 12 4

/-- w[11:8], as bits. -/
def fieldX (w : Word) : Nibble := w.extractLsb' 8 4

/-- w[7:4], as bits. -/
def fieldY (w : Word) : Nibble := w.extractLsb' 4 4

/-- w[3:0]. -/
def fieldN (w : Word) : Nibble := w.extractLsb' 0 4

/-- The low byte, w[7:0]. -/
def fieldKK (w : Word) : Byte := w.extractLsb' 0 8

/-- The low 12 bits, w[11:0]. -/
def fieldNNN (w : Word) : Addr12 := w.extractLsb' 0 12

/-- The register a nibble names (R91). -/
def nibbleReg (b : Nibble) : Reg := b.toFin

/-- The nibble that names a register (R91). -/
def regNibble (r : Reg) : Nibble := BitVec.ofFin r

/-- The register x. -/
def regX (w : Word) : Reg := nibbleReg (fieldX w)

/-- The register y. -/
def regY (w : Word) : Reg := nibbleReg (fieldY w)

/-! ## The decoder -/

/-- Family 0: a second match on the low byte (R96). -/
def decodeFamily0 (w : Word) : Instr :=
  if fieldKK w = 0xE0#8 then .cls (fieldX w)
  else if fieldKK w = 0xEE#8 then .ret (fieldX w)
  else .sys (fieldNNN w)

/-- Family 8: a second match on the low nibble (R97). -/
def decodeFamily8 (w : Word) : Instr :=
  match (fieldN w).toNat with
  | 0x0 => .ldReg (regX w) (regY w)
  | 0x1 => .orReg (regX w) (regY w)
  | 0x2 => .andReg (regX w) (regY w)
  | 0x3 => .xorReg (regX w) (regY w)
  | 0x4 => .addReg (regX w) (regY w)
  | 0x5 => .subReg (regX w) (regY w)
  | 0x6 => .shr (regX w) (regY w)
  | 0x7 => .subnReg (regX w) (regY w)
  | 0xE => .shl (regX w) (regY w)
  | _ => .nop w

/-- Family E: a second match on the low byte (R98). -/
def decodeFamilyE (w : Word) : Instr :=
  if fieldKK w = 0x9E#8 then .skp (regX w)
  else if fieldKK w = 0xA1#8 then .sknp (regX w)
  else .nop w

/-- Family F: a second match on the low byte (R99). -/
def decodeFamilyF (w : Word) : Instr :=
  if fieldKK w = 0x07#8 then .ldVxDt (regX w)
  else if fieldKK w = 0x0A#8 then .ldVxK (regX w)
  else if fieldKK w = 0x15#8 then .ldDtVx (regX w)
  else if fieldKK w = 0x18#8 then .ldStVx (regX w)
  else if fieldKK w = 0x1E#8 then .addI (regX w)
  else if fieldKK w = 0x29#8 then .ldF (regX w)
  else if fieldKK w = 0x33#8 then .ldB (regX w)
  else if fieldKK w = 0x55#8 then .ldMemVx (regX w)
  else if fieldKK w = 0x65#8 then .ldVxMem (regX w)
  else .nop w

/-- The instruction a word stands for: two-level matching, the high nibble first (R94, R95). Total: every
word selects one handler or the no-op handler. -/
def decode (w : Word) : Instr :=
  match (fieldF w).toNat with
  | 0x0 => decodeFamily0 w
  | 0x1 => .jp (fieldNNN w)
  | 0x2 => .call (fieldNNN w)
  | 0x3 => .seImm (regX w) (fieldKK w)
  | 0x4 => .sneImm (regX w) (fieldKK w)
  | 0x5 => .seReg (regX w) (regY w) (fieldN w)
  | 0x6 => .ldImm (regX w) (fieldKK w)
  | 0x7 => .addImm (regX w) (fieldKK w)
  | 0x8 => decodeFamily8 w
  | 0x9 => .sneReg (regX w) (regY w) (fieldN w)
  | 0xA => .ldI (fieldNNN w)
  | 0xB => .jpV0 (fieldNNN w)
  | 0xC => .rnd (regX w) (fieldKK w)
  | 0xD => .drw (regX w) (regY w) (fieldN w)
  | 0xE => decodeFamilyE w
  | _ => decodeFamilyF w

/-- Why a byte sequence holds no instruction. No word is illegal (R101); a word needs two bytes (R90). -/
inductive DecodeError where
  /-- fewer than two bytes are left -/
  | truncated
deriving DecidableEq, Repr

/-- The word of two bytes, the byte at the lower address in bits 15:8 (R64). -/
def wordOfBytes (hi lo : Byte) : Word := hi ++ lo

/-- The high byte of a word, stored at the lower address (R64). -/
def highByte (w : Word) : Byte := w.extractLsb' 8 8

/-- The low byte of a word, stored at the higher address (R64). -/
def lowByte (w : Word) : Byte := w.extractLsb' 0 8

/-- The instruction at the head of a byte sequence, and the bytes after it: always two bytes (R90). -/
def decodeBytes : List Byte → Except DecodeError (Instr × List Byte)
  | hi :: lo :: rest => .ok (decode (wordOfBytes hi lo), rest)
  | _ => .error .truncated

/-- The bytes of a word as memory holds them (R64). -/
def bytesOfWord (w : Word) : List Byte := [highByte w, lowByte w]

/-- What the decoder reads from an instruction whose bits, numbered as the opcode table numbers them, are
`w`: the bits from `nbits` up are 0; the word is laid out big-endian and given to `decodeBytes`. Every row
of the table has 16 bits. -/
def decodeTableWord (nbits w : Nat) : Option Instr :=
  match decodeBytes (bytesOfWord (BitVec.ofNat 16 (w % 2 ^ nbits))) with
  | .ok (i, _) => some i
  | .error _ => none

/-! ## The encoder -/

/-- A word of four nibbles (R91). -/
def wordFXYN (f x y n : Nibble) : Word := f ++ x ++ y ++ n

/-- A word of a family, a register nibble and a low byte (R91). -/
def wordFXKK (f x : Nibble) (kk : Byte) : Word := f ++ x ++ kk

/-- A word of a family and 12 low bits (R91). -/
def wordFNNN (f : Nibble) (nnn : Addr12) : Word := f ++ nnn

/-- The word of a well-formed instruction (R95). -/
def encode : Instr → Word
  | .cls ign => wordFXKK 0x0 ign 0xE0
  | .ret ign => wordFXKK 0x0 ign 0xEE
  | .sys nnn => wordFNNN 0x0 nnn
  | .jp nnn => wordFNNN 0x1 nnn
  | .call nnn => wordFNNN 0x2 nnn
  | .seImm x kk => wordFXKK 0x3 (regNibble x) kk
  | .sneImm x kk => wordFXKK 0x4 (regNibble x) kk
  | .seReg x y ign => wordFXYN 0x5 (regNibble x) (regNibble y) ign
  | .ldImm x kk => wordFXKK 0x6 (regNibble x) kk
  | .addImm x kk => wordFXKK 0x7 (regNibble x) kk
  | .ldReg x y => wordFXYN 0x8 (regNibble x) (regNibble y) 0x0
  | .orReg x y => wordFXYN 0x8 (regNibble x) (regNibble y) 0x1
  | .andReg x y => wordFXYN 0x8 (regNibble x) (regNibble y) 0x2
  | .xorReg x y => wordFXYN 0x8 (regNibble x) (regNibble y) 0x3
  | .addReg x y => wordFXYN 0x8 (regNibble x) (regNibble y) 0x4
  | .subReg x y => wordFXYN 0x8 (regNibble x) (regNibble y) 0x5
  | .shr x y => wordFXYN 0x8 (regNibble x) (regNibble y) 0x6
  | .subnReg x y => wordFXYN 0x8 (regNibble x) (regNibble y) 0x7
  | .shl x y => wordFXYN 0x8 (regNibble x) (regNibble y) 0xE
  | .sneReg x y ign => wordFXYN 0x9 (regNibble x) (regNibble y) ign
  | .ldI nnn => wordFNNN 0xA nnn
  | .jpV0 nnn => wordFNNN 0xB nnn
  | .rnd x kk => wordFXKK 0xC (regNibble x) kk
  | .drw x y n => wordFXYN 0xD (regNibble x) (regNibble y) n
  | .skp x => wordFXKK 0xE (regNibble x) 0x9E
  | .sknp x => wordFXKK 0xE (regNibble x) 0xA1
  | .ldVxDt x => wordFXKK 0xF (regNibble x) 0x07
  | .ldVxK x => wordFXKK 0xF (regNibble x) 0x0A
  | .ldDtVx x => wordFXKK 0xF (regNibble x) 0x15
  | .ldStVx x => wordFXKK 0xF (regNibble x) 0x18
  | .addI x => wordFXKK 0xF (regNibble x) 0x1E
  | .ldF x => wordFXKK 0xF (regNibble x) 0x29
  | .ldB x => wordFXKK 0xF (regNibble x) 0x33
  | .ldMemVx x => wordFXKK 0xF (regNibble x) 0x55
  | .ldVxMem x => wordFXKK 0xF (regNibble x) 0x65
  | .nop w => w

/-! ## The opcode table as match and mask (R102) -/

/-- One row: a word selects it when its bits under `mask` are those of `pattern`. -/
structure TableRow where
  mnemonic : String
  pattern : Word
  mask : Word
deriving DecidableEq, Repr

/-- The word has the row's fixed bits. -/
def TableRow.selects (r : TableRow) (w : Word) : Bool := w &&& r.mask == r.pattern

/-- The rows of families 0 to 7. -/
def tableLow : List TableRow :=
  [⟨"CLS", 0x00E0, 0xF0FF⟩, ⟨"RET", 0x00EE, 0xF0FF⟩, ⟨"SYS_nnn", 0x0000, 0xF000⟩,
   ⟨"JP_nnn", 0x1000, 0xF000⟩, ⟨"CALL_nnn", 0x2000, 0xF000⟩, ⟨"SE_Vx__kk", 0x3000, 0xF000⟩,
   ⟨"SNE_Vx__kk", 0x4000, 0xF000⟩, ⟨"SE_Vx__Vy", 0x5000, 0xF000⟩, ⟨"LD_Vx__kk", 0x6000, 0xF000⟩,
   ⟨"ADD_Vx__kk", 0x7000, 0xF000⟩]

/-- The rows of families 8 to D. -/
def tableMiddle : List TableRow :=
  [⟨"LD_Vx__Vy", 0x8000, 0xF00F⟩, ⟨"OR_Vx__Vy", 0x8001, 0xF00F⟩, ⟨"AND_Vx__Vy", 0x8002, 0xF00F⟩,
   ⟨"XOR_Vx__Vy", 0x8003, 0xF00F⟩, ⟨"ADD_Vx__Vy", 0x8004, 0xF00F⟩, ⟨"SUB_Vx__Vy", 0x8005, 0xF00F⟩,
   ⟨"SHR_Vx____Vy", 0x8006, 0xF00F⟩, ⟨"SUBN_Vx__Vy", 0x8007, 0xF00F⟩, ⟨"SHL_Vx____Vy", 0x800E, 0xF00F⟩,
   ⟨"SNE_Vx__Vy", 0x9000, 0xF000⟩, ⟨"LD_I__nnn", 0xA000, 0xF000⟩, ⟨"JP_V0__nnn", 0xB000, 0xF000⟩,
   ⟨"RND_Vx__kk", 0xC000, 0xF000⟩, ⟨"DRW_Vx__Vy__n", 0xD000, 0xF000⟩]

/-- The rows of families E and F, and the no-op row, last. -/
def tableHigh : List TableRow :=
  [⟨"SKP_Vx", 0xE09E, 0xF0FF⟩, ⟨"SKNP_Vx", 0xE0A1, 0xF0FF⟩, ⟨"LD_Vx__DT", 0xF007, 0xF0FF⟩,
   ⟨"LD_Vx__K", 0xF00A, 0xF0FF⟩, ⟨"LD_DT__Vx", 0xF015, 0xF0FF⟩, ⟨"LD_ST__Vx", 0xF018, 0xF0FF⟩,
   ⟨"ADD_I__Vx", 0xF01E, 0xF0FF⟩, ⟨"LD_F__Vx", 0xF029, 0xF0FF⟩, ⟨"LD_B__Vx", 0xF033, 0xF0FF⟩,
   ⟨"LD__I___Vx", 0xF055, 0xF0FF⟩, ⟨"LD_Vx___I", 0xF065, 0xF0FF⟩,
   ⟨"NOP__no-op_handler__every_word_not_matched_above", 0x0000, 0x0000⟩]

/-- spec/opcode_table.json, in its own order. -/
def opcodeTable : List TableRow := tableLow ++ tableMiddle ++ tableHigh

/-- The row a word selects: the first, in table order, that matches (R102). -/
def selectRow (w : Word) : Option TableRow := opcodeTable.find? (·.selects w)

/-- The table's mnemonic of an instruction. -/
def Instr.mnemonic : Instr → String
  | .cls _ => "CLS"
  | .ret _ => "RET"
  | .sys _ => "SYS_nnn"
  | .jp _ => "JP_nnn"
  | .call _ => "CALL_nnn"
  | .seImm _ _ => "SE_Vx__kk"
  | .sneImm _ _ => "SNE_Vx__kk"
  | .seReg _ _ _ => "SE_Vx__Vy"
  | .ldImm _ _ => "LD_Vx__kk"
  | .addImm _ _ => "ADD_Vx__kk"
  | .ldReg _ _ => "LD_Vx__Vy"
  | .orReg _ _ => "OR_Vx__Vy"
  | .andReg _ _ => "AND_Vx__Vy"
  | .xorReg _ _ => "XOR_Vx__Vy"
  | .addReg _ _ => "ADD_Vx__Vy"
  | .subReg _ _ => "SUB_Vx__Vy"
  | .shr _ _ => "SHR_Vx____Vy"
  | .subnReg _ _ => "SUBN_Vx__Vy"
  | .shl _ _ => "SHL_Vx____Vy"
  | .sneReg _ _ _ => "SNE_Vx__Vy"
  | .ldI _ => "LD_I__nnn"
  | .jpV0 _ => "JP_V0__nnn"
  | .rnd _ _ => "RND_Vx__kk"
  | .drw _ _ _ => "DRW_Vx__Vy__n"
  | .skp _ => "SKP_Vx"
  | .sknp _ => "SKNP_Vx"
  | .ldVxDt _ => "LD_Vx__DT"
  | .ldVxK _ => "LD_Vx__K"
  | .ldDtVx _ => "LD_DT__Vx"
  | .ldStVx _ => "LD_ST__Vx"
  | .addI _ => "ADD_I__Vx"
  | .ldF _ => "LD_F__Vx"
  | .ldB _ => "LD_B__Vx"
  | .ldMemVx _ => "LD__I___Vx"
  | .ldVxMem _ => "LD_Vx___I"
  | .nop _ => "NOP__no-op_handler__every_word_not_matched_above"

end Sys2Proof
end

