-- ==== Sys2Proof/Config.lean ====
section
/-! DEFINITION. What an implementation of the core fixes (00_scope R8, R9): the fixed sizes, the decided
parameters, and the open ones. An open parameter and a value the environment draws are `opaque` constants
with no body, so a theorem holds for every value of them. -/

namespace Sys2Proof.Config

/-- MEM_SIZE (R8): addresses 0x000 to 0xFFF. -/
def memSize : Nat := 4096

/-- PROGRAM_START (R8): where a program is loaded, the entry point, and the end of the reserved low region. -/
def programStart : Nat := 0x200

/-- STACK_DEPTH (R8). -/
def stackDepth : Nat := 16

/-- TICK_PERIOD (R8, R260): one sixtieth of a second. -/
def tickPeriod : Rat := 1 / 60

/-- GLYPH_COUNT x GLYPH_BYTES (R8). -/
def fontSize : Nat := 80

/-- The choice of FONT_BASE, an OPEN parameter (R9, R62): the type holds its one constraint,
FONT_BASE + 80 <= 0x200. A free value (log entry 3). -/
opaque fontBaseChoice : Fin 433

/-- FONT_BASE (R62): the address of the first byte of glyph 0. -/
def fontBase : Nat := fontBaseChoice.val

/-- FONT_GLYPHS (R63, D6): five rows for each hexadecimal digit, top row first, bit 7 leftmost. -/
def fontGlyphs : List Byte :=
  [0xF0, 0x90, 0x90, 0x90, 0xF0,  0x20, 0x60, 0x20, 0x20, 0x70,
   0xF0, 0x10, 0xF0, 0x80, 0xF0,  0xF0, 0x10, 0xF0, 0x10, 0xF0] ++
  [0x90, 0x90, 0xF0, 0x10, 0x10,  0xF0, 0x80, 0xF0, 0x10, 0xF0,
   0xF0, 0x80, 0xF0, 0x90, 0xF0,  0xF0, 0x10, 0x20, 0x40, 0x40] ++
  [0xF0, 0x90, 0xF0, 0x90, 0xF0,  0xF0, 0x90, 0xF0, 0x10, 0xF0,
   0xF0, 0x90, 0xF0, 0x90, 0x90,  0xE0, 0x90, 0xE0, 0x90, 0xE0] ++
  [0xF0, 0x80, 0x80, 0x80, 0xF0,  0xE0, 0x90, 0x90, 0x90, 0xE0,
   0xF0, 0x80, 0xF0, 0x80, 0xF0,  0xF0, 0x80, 0xF0, 0x80, 0x80]

/-- RNG, an OPEN parameter (R9, R14, R34, D21): the byte of the k-th draw. A free value (log entry 2). -/
opaque randomByte : Nat → Byte

/-- The wall-clock time in seconds that the host passes to the k-th completed cycle (R52): a
non-negative rational, a draw from the host. A free value (log entry 1). -/
opaque elapsed : Nat → NNRat

/-- STACK_POLICY (R9, D13): what a CALL on a full stack and a RET on an empty one do. -/
inductive StackPolicy where
  /-- the cycle is rejected with a fault -/
  | fault
  /-- the instruction only advances pc -/
  | clamp
deriving DecidableEq, Repr

/-- The decided policy: `fault` (R9, R25, D13; log entry 9). -/
def stackPolicy : StackPolicy := .fault

end Sys2Proof.Config
end

