-- ==== Sys2Proof/Machine/State.lean ====
section
/-! DEFINITION. The state of the core as plain data (10_state), its value at reset (R40), and the reasons a
step can stop. -/

namespace Sys2Proof.Machine

/-- The seven fault conditions of rule R250, in the order of their codes 1 to 7. -/
inductive FaultCode where
  /-- code 1: the fetch would read past 0xFFF (R121) -/
  | fetchOutOfRange
  /-- code 2: DXYN or FX65 would read past 0xFFF (R66) -/
  | readOutOfRange
  /-- code 3: FX33 or FX55 would write past 0xFFF (R66) -/
  | writeOutOfRange
  /-- code 4: FX33 or FX55 would write below 0x200 (R67) -/
  | reservedWrite
  /-- code 5: 2NNN with SP = 16 (R143) -/
  | stackOverflow
  /-- code 6: 00EE with SP = 0 (R141) -/
  | stackUnderflow
  /-- code 7: EX9E or EXA1 with V[x] > 0xF (R230) -/
  | keyIndexOutOfRange
deriving DecidableEq, Repr

/-- The fault record (R33, R251): the code, the faulting instruction's address and its word. -/
structure FaultRecord where
  code : FaultCode
  /-- the address of the faulting instruction -/
  pc : Word
  /-- its word; absent for a fetch fault -/
  word : Option Word
deriving DecidableEq, Repr

/-- Why a step stops the machine. -/
inductive Fault where
  /-- `cycle` was called while FAULT holds a record: it returns Fault(code) and executes nothing (R52, R122
  step 1, R252). Raised by `cycle` alone, never by an instruction's meaning. The record stands in the state
  already, so nothing is lost. Safe: the machine stops where the core answers without a step. -/
  | latched (code : FaultCode)
deriving DecidableEq, Repr

/-- Why a request has no meaning. -/
inductive Refusal where
  /-- An instruction whose arm of `exec` gives it no meaning yet. No arm answers so. Safe. -/
  | notModelled (mnemonic : String)
  /-- The host called `setKey` with a key number above 0xF: no such transaction (R53, D32). Raised by the
  host port alone. Safe. -/
  | noSuchKey (k : Nat)
  /-- The host called `readPixel` off the 64 x 32 grid: no such transaction (R55, D32). Raised by the host
  port alone. Safe. -/
  | noSuchPixel (x y : Nat)
deriving DecidableEq, Repr

/-- Memory: the bytes that differ from the reset contents, as cells in rising order of address (R28, R60).
What an unlisted address reads as is `resetByte` (Ops). -/
abbrev Mem := List Host.Cell

/-- The frame buffer, `FB[x][y]`: 64 columns of 32 one-bit pixels, `true` for on (R29). -/
abbrev FrameBuffer := Vector (Vector Bool 32) 64

/-- A blank frame buffer. -/
abbrev blankFrame : FrameBuffer := Vector.replicate 64 (Vector.replicate 32 false)

/-- Everything the spec gives the machine (10_state), and last the two counters that index free values. -/
structure State where
  /-- `V[0..15]`, the general registers (R20); V15 is the flag register VF (R21) -/
  v : Vector Byte 16
  /-- `I`, the index register (R22) -/
  i : Word
  /-- `pc`, the program counter (R23) -/
  pc : Word
  /-- `SP`, the number of return addresses in use, 0 to 16 (R24, R36) -/
  sp : Fin 17
  /-- `stack[0..15]`, the return addresses (R24) -/
  stack : Vector Word 16
  /-- `DT`, the delay timer (R26) -/
  dt : Byte
  /-- `ST`, the sound timer (R26) -/
  st : Byte
  /-- `ACC`, seconds gathered since the last tick and not yet consumed (R27) -/
  acc : Rat
  /-- `MEM[0..4095]` (R28) -/
  mem : Mem
  /-- `FB`, the frame buffer (R29) -/
  fb : FrameBuffer
  /-- `DIRTY`, the pixels changed since the last drain, oldest first (R30) -/
  dirty : List Pixel
  /-- `KEY[0..15]`, true while the key is pressed (R31) -/
  key : Vector Bool 16
  /-- `CUR`, the last completed cycle's instruction word (R32) -/
  cur : Word
  /-- `FAULT`, the fault record (R33) -/
  fault : Option FaultRecord
  /-- the model's own: how many random bytes have been drawn (log entry 2) -/
  rndDraws : Nat
  /-- the model's own: how many completed cycles have taken an elapsed time (log entry 1) -/
  dtDraws : Nat
deriving DecidableEq, Repr

/-- The state after reset and at construction (R40, R280, R281). The font is in memory's reset contents, so
the list of differing bytes is empty. The two counters start at 0 (DESIGN CHOICE, log entries 1 and 2). -/
def State.reset : State :=
  { v := Vector.replicate 16 0
    i := 0
    pc := 0x200
    sp := 0
    stack := Vector.replicate 16 0
    dt := 0
    st := 0
    acc := 0
    mem := []
    fb := blankFrame
    dirty := []
    key := Vector.replicate 16 false
    cur := 0x0000
    fault := none
    rndDraws := 0
    dtDraws := 0 }

end Sys2Proof.Machine
end

