-- ==== Sys2Proof/Machine/Ops.lean ====
section
/-! DEFINITION. The named operations over the state: memory, registers, the stack, the frame buffer, the keys,
the timers, fetching, raising a fault, and reset as the way back from one. -/

namespace Sys2Proof.Machine

/-! ## Memory (20_memory) -/

/-- What an address reads as when nothing has been written there: the font at FONT_BASE inside the reserved
low region, 0 everywhere else (R40, R61, R62, R63). -/
def resetByte (a : Nat) : Byte :=
  if a < Config.programStart then
    (if Config.fontBase ≤ a then Config.fontGlyphs.getD (a - Config.fontBase) 0 else 0)
  else 0

/-- The byte at an address. -/
def Mem.read : Mem → Nat → Byte
  | [], a => resetByte a
  | (b, y) :: m, a => if a = b then y else Mem.read m a

/-- Memory with no cell for the address. -/
def Mem.erase (m : Mem) (a : Nat) : Mem := m.filter (fun c => c.1 ≠ a)

/-- Memory with a cell placed before the first cell of a higher address. -/
def Mem.place : Mem → Nat → Byte → Mem
  | [], a, x => [(a, x)]
  | (b, y) :: m, a, x => if a < b then (a, x) :: (b, y) :: m else (b, y) :: Mem.place m a x

/-- Memory after a byte is written. A cell stands only where the byte differs from the reset contents. -/
def Mem.write (m : Mem) (a : Nat) (x : Byte) : Mem :=
  if x = resetByte a then m.erase a else (m.erase a).place a x

/-- The canonical form: addresses strictly rising and in range, no cell equal to what an unlisted address
reads as. -/
abbrev Mem.wf (m : Mem) : Prop :=
  m.Pairwise (fun c d => c.1 < d.1) ∧ ∀ c ∈ m, c.1 < Config.memSize ∧ c.2 ≠ resetByte c.1

/-- The n bytes at a, a+1, ... (R13: MemRead). -/
def Mem.readBytes (m : Mem) (a n : Nat) : List Byte := (List.range n).map (fun k => m.read (a + k))

/-- Memory after bytes are written at a, a+1, ... in order (R13: MemWrite; R70). -/
def Mem.writeBytes : Mem → Nat → List Byte → Mem
  | m, _, [] => m
  | m, a, x :: xs => Mem.writeBytes (m.write a x) (a + 1) xs

/-- Why reading n bytes at a faults: some address is above 0xFFF. Addresses are unbounded integers (R66,
R68). Reading no byte never faults (R213). -/
def readFault (a n : Nat) : Option FaultCode :=
  if n = 0 ∨ a + n - 1 ≤ 0xFFF then none else some .readOutOfRange

/-- Why an instruction's writing n bytes (n > 0) at a faults: some address is above 0xFFF, or the first is
below PROGRAM_START (R66, R67, R68). -/
def writeFault (a n : Nat) : Option FaultCode :=
  if a + n - 1 > 0xFFF then some .writeOutOfRange
  else if a < Config.programStart then some .reservedWrite
  else none

/-! ## Registers (10_state) -/

/-- `V[r]` (R20). -/
def State.reg (s : State) (r : Reg) : Byte := s.v[r]

/-- `V[r] <- b` (R20). No register is hard-wired. -/
def State.setReg (s : State) (r : Reg) (b : Byte) : State := { s with v := s.v.set r b }

/-- VF, the flag register (R21). -/
def VF : Reg := 15

/-! ## Faults (60_exceptions) -/

/-- The number of a fault code (R250). -/
def FaultCode.number : FaultCode → Nat
  | .fetchOutOfRange => 1
  | .readOutOfRange => 2
  | .writeOutOfRange => 3
  | .reservedWrite => 4
  | .stackOverflow => 5
  | .stackUnderflow => 6
  | .keyIndexOutOfRange => 7

/-- `FAULT <- (code, p, w)`, and nothing else (R251). -/
def State.recordFault (s : State) (code : FaultCode) (p : Word) (w : Option Word) : State :=
  { s with fault := some { code := code, pc := p, word := w } }

/-- Taking the core's one exception from inside a handler: `raise F(p, w)` (R14, R25, R251). The handler has
written nothing; pc holds p + 2 and CUR holds w (R15, R122). The record is set here, and `finishCycle`
puts every other field back to its value at the start of the cycle. There is no vector, no saved status
and no mode to change (R254, R256). -/
def raiseFault (code : FaultCode) (s : State) : Host.Outcome State Fault Refusal :=
  .next (s.recordFault code (s.pc - 2) (some s.cur))

/-- A handler's effect under its fault check: the check comes before any write (R14, R68). -/
def guarded (check : Option FaultCode) (s effect : State) : Host.Outcome State Fault Refusal :=
  match check with
  | none => .next effect
  | some code => raiseFault code s

/-- The return from a fault: there is no instruction for it, only reset (R252, R254). Every field takes its
reset value (R50, R280). The two counters of the model go on, so that later draws are fresh (log entry 6). -/
def resetOp (s : State) : State :=
  { State.reset with rndDraws := s.rndDraws, dtDraws := s.dtDraws }

/-! ## The program counter (40_cycle, 41_control_flow) -/

/-- Steps 3 and 4 of the cycle: the word at pc, big-endian, unless pc + 1 > 0xFFF (R64, R121, R122). -/
def fetchWord (s : State) : Option Word :=
  if s.pc.toNat + 1 > 0xFFF then none
  else some (wordOfBytes (s.mem.read s.pc.toNat) (s.mem.read (s.pc.toNat + 1)))

/-- Step 5 of the cycle: `pc <- (p + 2) mod 2^16 ; CUR <- w` (R122). -/
def State.advance (s : State) (w : Word) : State := { s with pc := s.pc + 2, cur := w }

/-- `skip()`: `pc <- (pc + 2) mod 2^16` (R140). -/
def State.skip (s : State) : State := { s with pc := s.pc + 2 }

/-- `if cond then skip()` (R140). -/
def State.skipIf (s : State) (cond : Bool) : State := { s with pc := if cond then s.pc + 2 else s.pc }

/-- A 12-bit immediate as a 16-bit address: `zext_16(nnn)` (R93). -/
def zext16 (nnn : Addr12) : Word := nnn.setWidth 16

/-! ## The stack (R24, R25) -/

/-- `push(a)`: writes at SP, then SP + 1; overflow at 16 (R25). -/
def push (a : Word) (s : State) : Except FaultCode State :=
  if h : s.sp.val < 16 then
    .ok { s with stack := s.stack.set s.sp.val a, sp := ⟨s.sp.val + 1, Nat.succ_lt_succ h⟩ }
  else .error .stackOverflow

/-- `pop()`: SP - 1, then the entry there, which keeps its value; underflow at 0 (R25, D14). -/
def pop (s : State) : Except FaultCode (Word × State) :=
  if h : 0 < s.sp.val then
    .ok (s.stack[s.sp.val - 1]'(by omega), { s with sp := ⟨s.sp.val - 1, by omega⟩ })
  else .error .stackUnderflow

/-- What a CALL or RET whose push or pop fails does: under `fault` it raises the fault; under `clamp` it
only advances pc, which the cycle has done already (R9, D13; log entry 9). -/
def stackFailure (policy : Config.StackPolicy) (code : FaultCode) (s : State) :
    Host.Outcome State Fault Refusal :=
  match policy with
  | .fault => raiseFault code s
  | .clamp => .next s

/-! ## The frame buffer and the DirtySet (44_display) -/

/-- `FB[x][y]` (R29). -/
def FrameBuffer.pixel (fb : FrameBuffer) (p : Pixel) : Bool := fb[p.1][p.2]

/-- `FB[x][y] <- b`. -/
def FrameBuffer.setPixel (fb : FrameBuffer) (p : Pixel) (b : Bool) : FrameBuffer :=
  fb.set p.1 (fb[p.1].set p.2 b)

/-- The lit pixels row by row from y = 0, and within a row from x = 0 (R211, D20). -/
def litPixels (fb : FrameBuffer) : List Pixel :=
  (List.finRange 32).flatMap fun y =>
    (List.finRange 64).filterMap fun x => if fb.pixel (x, y) then some (x, y) else none

/-- What a draw changes: the frame buffer, the DirtySet and the collision flag c (R212). -/
structure Canvas where
  fb : FrameBuffer
  dirty : List Pixel
  hit : Bool
deriving DecidableEq, Repr

/-- One 1 bit of a sprite: collision if the pixel was on, then XOR, then append (R212). -/
def Canvas.plot (c : Canvas) (p : Pixel) : Canvas :=
  { fb := c.fb.setPixel p (!c.fb.pixel p)
    dirty := c.dirty ++ [p]
    hit := c.hit || c.fb.pixel p }

/-- The pixel of a sprite's row r and column offset col, wrapped: `((bx + col) mod 64, (by + r) mod 32)`
(R210, R212). -/
def spritePixel (bx ry : Byte) (r col : Nat) : Pixel :=
  (Fin.ofNat 64 (bx.toNat + col), Fin.ofNat 32 (ry.toNat + r))

/-- The pixels of one sprite row's 1 bits, from the left; bit 7 is column offset 0 (R212, D19). -/
def rowPixels (bx ry : Byte) (r : Nat) (row : Byte) : List Pixel :=
  ((List.range 8).filter (fun col => row.getLsbD (7 - col))).map (spritePixel bx ry r)

/-- The pixels of a sprite's 1 bits, row by row: rows at (bx, ry + r), (bx, ry + r + 1), ... (R212). -/
def spritePixels (bx ry : Byte) : Nat → List Byte → List Pixel
  | _, [] => []
  | r, row :: rows => rowPixels bx ry r row ++ spritePixels bx ry (r + 1) rows

/-- Plotting pixels in order. -/
def Canvas.plotAll (c : Canvas) (ps : List Pixel) : Canvas := ps.foldl Canvas.plot c

/-! ## Keys (R31, R230, R234) -/

/-- `KEY[k]`. -/
def State.keyDown (s : State) (k : Key) : Bool := s.key[k]

/-- The lowest pressed key: an ascending scan (R234). -/
def lowestKey (s : State) : Option Key := (List.finRange 16).find? (fun k => s.keyDown k)

/-- A register's value as a key number, if it is one (R230). -/
def keyNumber (b : Byte) : Option Key := if h : b.toNat < 16 then some ⟨b.toNat, h⟩ else none

/-! ## The timer unit (60_exceptions R260) -/

/-- A counter after a tick: one less, floored at 0. -/
def tickDown (b : Byte) : Byte := if b = 0 then 0 else b - 1

/-- The accumulated time has reached 1/60 second once `dt` is added. -/
def tickFires (elapsed : Rat) (s : State) : Bool := decide (Config.tickPeriod ≤ s.acc + elapsed)

/-- `timer_check(dt)`: at most one tick, the remainder carried over; both counters fall together (R260). -/
def timerCheck (elapsed : Rat) (s : State) : State :=
  { s with
    dt := if tickFires elapsed s then tickDown s.dt else s.dt
    st := if tickFires elapsed s then tickDown s.st else s.st
    acc := if tickFires elapsed s then s.acc + elapsed - Config.tickPeriod else s.acc + elapsed }

/-! ## The end of a cycle (R122, R126) -/

/-- A cycle that took no fault: the timer check (R122 step 7). The model's counter of elapsed times moves on. -/
def completeCycle (elapsed : Rat) (t : State) : State :=
  { timerCheck elapsed t with dtDraws := t.dtDraws + 1 }

/-- `reject(code, p, w)`: `state <- S0 ; FAULT <- (code, p, w)` (R122, R126, R251). -/
def rejectCycle (s0 : State) (r : FaultRecord) : State := { s0 with fault := some r }

/-- After a handler ran from start-of-cycle state `s0` and left `t`: a recorded fault rejects the cycle, and
nothing else of `t` remains; otherwise the cycle completes. -/
def finishCycle (elapsed : Rat) (s0 t : State) : State :=
  match t.fault with
  | some r => rejectCycle s0 r
  | none => completeCycle elapsed t

/-! ## Storing an instruction where the next fetch reads it -/

/-- The state with a word stored at pc, big-endian, and no fault recorded, so that the next cycle fetches
that word (log entry 8). Where no fetch is possible (pc + 1 > 0xFFF) no byte is stored. -/
def storeAtPc (w : Word) (s : State) : State :=
  { s with
    mem := if s.pc.toNat + 1 > 0xFFF then s.mem else s.mem.writeBytes s.pc.toNat (bytesOfWord w)
    fault := none }

end Sys2Proof.Machine
end

