-- ==== Sys2Proof/Machine/Operands.lean ====
section
/-! DEFINITION. The operand forms of the instructions (30_encoding R93, 43_index_memory R190): registers,
immediates, and the bytes addressed from I. -/

namespace Sys2Proof.Machine

/-- A handler that only computes a new `V[x]`: reads first, then one write (R160). -/
def writeReg (x : Reg) (b : Byte) (s : State) : Host.Outcome State Fault Refusal := .next (s.setReg x b)

/-- The address in I as an unbounded integer; I + k is never reduced (R66, R190). -/
def indexAddress (s : State) : Nat := s.i.toNat

/-- The registers V0 to Vx, in order (R195). -/
def regsUpTo (x : Reg) (s : State) : List Byte := s.v.toList.take (x.val + 1)

/-- The register file after V0 to Vx are loaded from the bytes at an address (R196). -/
def loadRegs (x : Reg) (a : Nat) (s : State) : Vector Byte 16 :=
  Vector.ofFn fun r => if r ≤ x then s.mem.read (a + r.val) else s.v[r]

/-- The three decimal digits of a byte: hundreds, tens, ones (R194, D18). -/
def decimalDigits (b : Byte) : List Byte :=
  [BitVec.ofNat 8 (b.toNat / 100), BitVec.ofNat 8 (b.toNat / 10 % 10), BitVec.ofNat 8 (b.toNat % 10)]

/-- A skip on a comparison of two register or immediate operands (R140). -/
def skipWhen (cond : Bool) (s : State) : Host.Outcome State Fault Refusal := .next (s.skipIf cond)

/-- A skip on a key's level: the register must hold a key number (R230). -/
def skipOnKey (x : Reg) (wanted : Bool) (s : State) : Host.Outcome State Fault Refusal :=
  match keyNumber (s.reg x) with
  | none => raiseFault .keyIndexOutOfRange s
  | some k => .next (s.skipIf (s.keyDown k == wanted))

/-- Writing bytes at I under the range check of rules R66, R67 and R68. I is unchanged (R190). -/
def storeAtIndex (bytes : List Byte) (s : State) : Host.Outcome State Fault Refusal :=
  guarded (writeFault (indexAddress s) bytes.length) s
    { s with mem := s.mem.writeBytes (indexAddress s) bytes }

end Sys2Proof.Machine
end

