-- ==== Sys2Proof/Machine/Flags.lean ====
section
/-! DEFINITION. Every value the spec writes to VF as a flag (42_alu R160, R173), and the one way a result and a
flag are written. There is no other status flag (R35). -/

namespace Sys2Proof.Machine

/-- Carry: the 9-bit sum exceeds 255 (R167, R173). -/
def carry (a b : Byte) : Bool := decide (255 < a.toNat + b.toNat)

/-- No borrow: the minuend is strictly greater than the subtrahend (R168, R170, R173). -/
def noBorrow (minuend subtrahend : Byte) : Bool := decide (subtrahend.toNat < minuend.toNat)

/-- The bit a right shift puts out: the old bit 0 (R169). -/
def shiftedOutRight (a : Byte) : Bool := a.getLsbD 0

/-- The bit a left shift puts out: the old bit 7 (R171). -/
def shiftedOutLeft (a : Byte) : Bool := a.getLsbD 7

/-- A flag as VF holds it: 1 or 0. -/
def flagByte (f : Bool) : Byte := if f then 1 else 0

/-- The result to V[x] first, then the flag to VF; so VF ends as the flag when x = 0xF (R160, D15). -/
def writeResultAndFlag (x : Reg) (result : Byte) (flag : Bool) (s : State) :
    Host.Outcome State Fault Refusal :=
  .next ((s.setReg x result).setReg VF (flagByte flag))

end Sys2Proof.Machine
end

