-- ==== Sys2Proof/Machine/Alu.lean ====
section
/-! DEFINITION. Register arithmetic and logic (42_alu). Operands are read before anything is written (R160);
BitVec arithmetic on bytes is arithmetic mod 256 (R173). -/

namespace Sys2Proof.Machine

/-- LD Vx, kk (R161). -/
def execLdImm (x : Reg) (kk : Byte) (s : State) : Host.Outcome State Fault Refusal := writeReg x kk s

/-- ADD Vx, kk (R162): no flag. -/
def execAddImm (x : Reg) (kk : Byte) (s : State) : Host.Outcome State Fault Refusal :=
  writeReg x (s.reg x + kk) s

/-- LD Vx, Vy (R163). -/
def execLdReg (x y : Reg) (s : State) : Host.Outcome State Fault Refusal := writeReg x (s.reg y) s

/-- OR Vx, Vy (R164): VF unchanged unless it is Vx. -/
def execOrReg (x y : Reg) (s : State) : Host.Outcome State Fault Refusal :=
  writeReg x (s.reg x ||| s.reg y) s

/-- AND Vx, Vy (R165): VF unchanged unless it is Vx. -/
def execAndReg (x y : Reg) (s : State) : Host.Outcome State Fault Refusal :=
  writeReg x (s.reg x &&& s.reg y) s

/-- XOR Vx, Vy (R166): VF unchanged unless it is Vx. -/
def execXorReg (x y : Reg) (s : State) : Host.Outcome State Fault Refusal :=
  writeReg x (s.reg x ^^^ s.reg y) s

/-- ADD Vx, Vy (R167): VF is the carry. -/
def execAddReg (x y : Reg) (s : State) : Host.Outcome State Fault Refusal :=
  writeResultAndFlag x (s.reg x + s.reg y) (carry (s.reg x) (s.reg y)) s

/-- SUB Vx, Vy (R168): Vx - Vy, VF is the strict no-borrow. -/
def execSubReg (x y : Reg) (s : State) : Host.Outcome State Fault Refusal :=
  writeResultAndFlag x (s.reg x - s.reg y) (noBorrow (s.reg x) (s.reg y)) s

/-- SHR Vx (R169): shifts Vx itself; y is ignored; VF is the old bit 0. -/
def execShr (x _y : Reg) (s : State) : Host.Outcome State Fault Refusal :=
  writeResultAndFlag x (s.reg x >>> 1) (shiftedOutRight (s.reg x)) s

/-- SUBN Vx, Vy (R170): Vy - Vx, VF is the strict no-borrow. -/
def execSubnReg (x y : Reg) (s : State) : Host.Outcome State Fault Refusal :=
  writeResultAndFlag x (s.reg y - s.reg x) (noBorrow (s.reg y) (s.reg x)) s

/-- SHL Vx (R171): shifts Vx itself; y is ignored; VF is the old bit 7. -/
def execShl (x _y : Reg) (s : State) : Host.Outcome State Fault Refusal :=
  writeResultAndFlag x (s.reg x <<< 1) (shiftedOutLeft (s.reg x)) s

/-- RND Vx, kk (R172): one free byte is drawn, masked with kk (R14, D21). -/
def execRnd (x : Reg) (kk : Byte) (s : State) : Host.Outcome State Fault Refusal :=
  .next { s.setReg x (Config.randomByte s.rndDraws &&& kk) with rndDraws := s.rndDraws + 1 }

end Sys2Proof.Machine
end

