-- ==== Sys2Proof/Machine/Control.lean ====
section
/-! DEFINITION. Control flow: return, jump, call, the comparing skips, jump with offset (41_control_flow). On
entry pc holds p + 2, p being the instruction's address (R15). -/

namespace Sys2Proof.Machine

/-- RET (R141): underflow at SP = 0; else pop into pc. -/
def execRet (_ign : Nibble) (s : State) : Host.Outcome State Fault Refusal :=
  match pop s with
  | .error code => stackFailure Config.stackPolicy code s
  | .ok (a, t) => .next { t with pc := a }

/-- JP nnn (R142). -/
def execJp (nnn : Addr12) (s : State) : Host.Outcome State Fault Refusal := .next { s with pc := zext16 nnn }

/-- CALL nnn (R143): overflow at SP = 16; else push pc, which is p + 2, and jump. -/
def execCall (nnn : Addr12) (s : State) : Host.Outcome State Fault Refusal :=
  match push s.pc s with
  | .error code => stackFailure Config.stackPolicy code s
  | .ok t => .next { t with pc := zext16 nnn }

/-- SE Vx, kk (R144). -/
def execSeImm (x : Reg) (kk : Byte) (s : State) : Host.Outcome State Fault Refusal :=
  skipWhen (s.reg x == kk) s

/-- SNE Vx, kk (R145). -/
def execSneImm (x : Reg) (kk : Byte) (s : State) : Host.Outcome State Fault Refusal :=
  skipWhen (s.reg x != kk) s

/-- SE Vx, Vy (R146); the low nibble is ignored (R100). -/
def execSeReg (x y : Reg) (_ign : Nibble) (s : State) : Host.Outcome State Fault Refusal :=
  skipWhen (s.reg x == s.reg y) s

/-- SNE Vx, Vy (R147); the low nibble is ignored (R100). -/
def execSneReg (x y : Reg) (_ign : Nibble) (s : State) : Host.Outcome State Fault Refusal :=
  skipWhen (s.reg x != s.reg y) s

/-- JP V0, nnn (R148): the sum is not reduced to 12 bits; the offset is always V0. -/
def execJpV0 (nnn : Addr12) (s : State) : Host.Outcome State Fault Refusal :=
  .next { s with pc := zext16 nnn + (s.reg 0).setWidth 16 }

end Sys2Proof.Machine
end

