-- ==== Sys2Proof/Machine/Display.lean ====
section
/-! DEFINITION. The display: clear and draw, with the DirtySet (44_display). -/

namespace Sys2Proof.Machine

/-- CLS (R211): every lit pixel is put off and recorded; VF unchanged. -/
def execCls (_ign : Nibble) (s : State) : Host.Outcome State Fault Refusal :=
  .next { s with fb := blankFrame, dirty := s.dirty ++ litPixels s.fb }

/-- What a draw of n rows at (V[x], V[y]) from I makes of the frame buffer, the DirtySet and the collision
flag (R212). -/
def drawSprite (x y : Reg) (n : Nat) (s : State) : Canvas :=
  Canvas.plotAll { fb := s.fb, dirty := s.dirty, hit := false }
    (spritePixels (s.reg x) (s.reg y) 0 (s.mem.readBytes (indexAddress s) n))

/-- DRW Vx, Vy, n (R212, R213): the coordinates are read before VF is written; VF is always written. -/
def execDrw (x y : Reg) (n : Nibble) (s : State) : Host.Outcome State Fault Refusal :=
  guarded (readFault (indexAddress s) n.toNat) s
    (State.setReg
      { s with fb := (drawSprite x y n.toNat s).fb, dirty := (drawSprite x y n.toNat s).dirty }
      VF (flagByte (drawSprite x y n.toNat s).hit))

end Sys2Proof.Machine
end

