-- ==== Sys2Proof/Machine/Index.lean ====
section
/-! DEFINITION. The index register and the memory transfers (43_index_memory). None writes pc; FX33, FX55 and
FX65 leave I unchanged (R190). -/

namespace Sys2Proof.Machine

/-- LD I, nnn (R191). -/
def execLdI (nnn : Addr12) (s : State) : Host.Outcome State Fault Refusal := .next { s with i := zext16 nnn }

/-- ADD I, Vx (R192): mod 2^16, VF unchanged. -/
def execAddI (x : Reg) (s : State) : Host.Outcome State Fault Refusal :=
  .next { s with i := s.i + (s.reg x).setWidth 16 }

/-- LD F, Vx (R193): FONT_BASE + 5 V[x], not masked. -/
def execLdF (x : Reg) (s : State) : Host.Outcome State Fault Refusal :=
  .next { s with i := BitVec.ofNat 16 (Config.fontBase + (s.reg x).toNat * 5) }

/-- LD B, Vx (R194): three decimal digits at I. -/
def execLdB (x : Reg) (s : State) : Host.Outcome State Fault Refusal :=
  storeAtIndex (decimalDigits (s.reg x)) s

/-- LD [I], Vx (R195): V0 to Vx at I. -/
def execLdMemVx (x : Reg) (s : State) : Host.Outcome State Fault Refusal :=
  storeAtIndex (regsUpTo x s) s

/-- LD Vx, [I] (R196): V0 to Vx from I. -/
def execLdVxMem (x : Reg) (s : State) : Host.Outcome State Fault Refusal :=
  guarded (readFault (indexAddress s) (x.val + 1)) s { s with v := loadRegs x (indexAddress s) s }

end Sys2Proof.Machine
end

