-- ==== Sys2Proof/Machine/Input.lean ====
section
/-! DEFINITION. Key input and timer transfers (45_input_timers). The tick of the same cycle comes after the
handler, so a handler sees DT and ST as they were before it. -/

namespace Sys2Proof.Machine

/-- SKP Vx (R231). -/
def execSkp (x : Reg) (s : State) : Host.Outcome State Fault Refusal := skipOnKey x true s

/-- SKNP Vx (R232). -/
def execSknp (x : Reg) (s : State) : Host.Outcome State Fault Refusal := skipOnKey x false s

/-- LD Vx, DT (R233). -/
def execLdVxDt (x : Reg) (s : State) : Host.Outcome State Fault Refusal := writeReg x s.dt s

/-- LD Vx, K (R234): the lowest pressed key, or pc back to this instruction. -/
def execLdVxK (x : Reg) (s : State) : Host.Outcome State Fault Refusal :=
  match lowestKey s with
  | some k => writeReg x (BitVec.ofNat 8 k.val) s
  | none => .next { s with pc := s.pc - 2 }

/-- LD DT, Vx (R235). -/
def execLdDtVx (x : Reg) (s : State) : Host.Outcome State Fault Refusal := .next { s with dt := s.reg x }

/-- LD ST, Vx (R236). -/
def execLdStVx (x : Reg) (s : State) : Host.Outcome State Fault Refusal := .next { s with st := s.reg x }

end Sys2Proof.Machine
end

