-- ==== Sys2Proof/Machine/System.lean ====
section
/-! DEFINITION. The handlers without effect: SYS and the no-op handler (40_cycle R124, R125). The cycle around
them still advances pc, sets CUR and runs the timer check. -/

namespace Sys2Proof.Machine

/-- SYS nnn (R125): nothing. -/
def execSys (_nnn : Addr12) (s : State) : Host.Outcome State Fault Refusal := .next s

/-- The no-op handler (R124): nothing. -/
def execNop (_w : Word) (s : State) : Host.Outcome State Fault Refusal := .next s

end Sys2Proof.Machine
end

