-- ==== Sys2Proof/Machine/Cycle.lean ====
section
/-! DEFINITION. One call of `cycle(dt)` (40_cycle R122, 10_state R52), the core's only step. -/

namespace Sys2Proof.Machine

/-- Steps 5 to 8 of a cycle that fetched the instruction `i` as the word `w`: advance, run the handler, then
reject or complete (R122). -/
def runInstr (elapsed : Rat) (i : Instr) (w : Word) (s : State) : Host.Outcome State Fault Refusal :=
  match exec i (s.advance w) with
  | .next t => .next (finishCycle elapsed s t)
  | .fault f => .fault f
  | .refused r => .refused r

/-- `cycle(dt)` (R122). With a fault recorded it returns that fault and executes nothing (step 1). A fetch
past the end of memory rejects the cycle with no word (step 3). -/
def cycle (elapsed : Rat) (s : State) : Host.Outcome State Fault Refusal :=
  match s.fault with
  | some r => .fault (.latched r.code)
  | none =>
    match fetchWord s with
    | none => .next (rejectCycle s { code := .fetchOutOfRange, pc := s.pc, word := none })
    | some w => runInstr elapsed (decode w) w s

/-- The wall-clock time the next completed cycle is given: a free non-negative rational (R52; log entry 1). -/
def nextElapsed (s : State) : Rat := (Config.elapsed s.dtDraws : Rat)

end Sys2Proof.Machine
end

