-- ==== Sys2Proof/Machine/Step.lean ====
section
/-! DEFINITION. One step of the machine: one call of `cycle` with a free elapsed time (00_scope R7, R18). -/

namespace Sys2Proof.Machine

/-- One step (R52, R120). -/
def step (s : State) : Host.Outcome State Fault Refusal := cycle (nextElapsed s) s

/-- The state with the instruction whose 16 bits are `w` stored where the next step fetches it. -/
def State.withFetchWord (s : State) (nbits w : Nat) : State :=
  storeAtPc (BitVec.ofNat 16 (w % 2 ^ nbits)) s

end Sys2Proof.Machine
end

