-- ==== Sys2Proof/Machine/Ports.lean ====
section
/-! DEFINITION. The host's ports (10_state R50 to R59): each operation is one atomic transaction between two
cycles. The host has no other way to change the state (R58). -/

namespace Sys2Proof.Machine

/-- What `loadProgram` returns (R51). -/
inductive LoadReply where
  | accepted
  | rejected
deriving DecidableEq, Repr

/-- What `cycle` returns (R52). -/
inductive CycleReply where
  | ok
  | fault (code : FaultCode)
deriving DecidableEq, Repr

/-- The diagnostic record (R57, R265). -/
structure Snapshot where
  cur : Word
  v : Vector Byte 16
  stack : Vector Word 16
  sp : Fin 17
  key : Vector Bool 16
  pc : Word
  i : Word
  dt : Byte
  st : Byte
  fault : Option FaultRecord
deriving DecidableEq, Repr

/-- A change of the tone's level between two observations (R262). -/
inductive ToneEdge where
  | on
  | off
deriving DecidableEq, Repr

/-- The most bytes `loadProgram` accepts: 4096 - 0x200 = 3584 (R51). -/
def maxProgram : Nat := Config.memSize - Config.programStart

/-- `loadProgram(bytes)` (R51, R284): all of it from 0x200, or nothing. No other field changes. -/
def loadProgram (bytes : List Byte) (s : State) : LoadReply × State :=
  if bytes.length ≤ maxProgram then
    (.accepted, { s with mem := s.mem.writeBytes Config.programStart bytes })
  else (.rejected, s)

/-- `setKey(k, pressed)` for a key number (R53). -/
def setKeyFlag (k : Key) (pressed : Bool) (s : State) : State := { s with key := s.key.set k pressed }

/-- `drainDirty()` (R54): the sequence in order, and an empty DirtySet. -/
def drainDirty (s : State) : List Pixel × State := (s.dirty, { s with dirty := [] })

/-- `toneActive()` (R56): ST > 0. -/
def toneActive (s : State) : Bool := decide (0 < s.st.toNat)

/-- `snapshot()` (R57). -/
def snapshot (s : State) : Snapshot :=
  { cur := s.cur, v := s.v, stack := s.stack, sp := s.sp, key := s.key, pc := s.pc, i := s.i, dt := s.dt
    st := s.st, fault := s.fault }

/-- The tone edge between two observations (R262): a change of the level only. -/
def toneEdge (before after : State) : Option ToneEdge :=
  match toneActive before, toneActive after with
  | false, true => some .on
  | true, false => some .off
  | true, true => none
  | false, false => none

/-- What a cycle that left state `t` returned: Fault(code) when it recorded one, else Ok (R122, R251). -/
def cycleReply (t : State) : CycleReply :=
  match t.fault with
  | none => .ok
  | some r => .fault r.code

/-- An operation the host calls (R50 to R57). The elapsed time of `cycle` is a non-negative rational. -/
inductive HostOp where
  | reset
  | loadProgram (bytes : List Byte)
  | cycle (elapsed : NNRat)
  | setKey (k : Nat) (pressed : Bool)
  | drainDirty
  | readPixel (x y : Nat)
  | toneActive
  | snapshot
deriving DecidableEq

/-- What an operation returns. -/
inductive HostReply where
  | done
  | load (r : LoadReply)
  | cycle (r : CycleReply)
  | pixels (ps : List Pixel)
  | bit (b : Bool)
  | record (r : Snapshot)
deriving DecidableEq, Repr

/-- The `cycle` transaction: a core with a fault recorded returns it and is unchanged (R52, R252). -/
def cycleOp (elapsed : Rat) (s : State) : Host.Outcome (HostReply × State) Fault Refusal :=
  match cycle elapsed s with
  | .next t => .next (.cycle (cycleReply t), t)
  | .fault (.latched code) => .next (.cycle (.fault code), s)
  | .refused r => .refused r

/-- One transaction: the reply and the state after it. A `setKey` above 0xF and a `readPixel` off the grid
are refused: there is no such transaction (R53, R55, D32). -/
def transact (op : HostOp) (s : State) : Host.Outcome (HostReply × State) Fault Refusal :=
  match op with
  | .reset => .next (.done, resetOp s)
  | .loadProgram bytes => .next (.load (loadProgram bytes s).1, (loadProgram bytes s).2)
  | .cycle elapsed => cycleOp elapsed s
  | .setKey k pressed =>
    if h : k < 16 then .next (.done, setKeyFlag ⟨k, h⟩ pressed s) else .refused (.noSuchKey k)
  | .drainDirty => .next (.pixels (drainDirty s).1, (drainDirty s).2)
  | .readPixel x y =>
    if h : x < 64 ∧ y < 32 then .next (.bit (s.fb.pixel (⟨x, h.1⟩, ⟨y, h.2⟩)), s)
    else .refused (.noSuchPixel x y)
  | .toneActive => .next (.bit (toneActive s), s)
  | .snapshot => .next (.record (snapshot s), s)

/-- The boot sequence (R283): reset, then the load; none where the load is rejected. -/
def boot (bytes : List Byte) (s : State) : Option State :=
  match loadProgram bytes (resetOp s) with
  | (.accepted, t) => some t
  | (.rejected, _) => none

end Sys2Proof.Machine
end

