-- ==== Sys2Proof/Safety.lean ====
section
/-! DEFINITION. The terms the claims are stated in: the machine's invariant, what a frame says, and the two end
points of a run (70_reset_and_hazards R291). -/

namespace Sys2Proof.Machine

/-- What holds of the core between cycles, in three parts: memory is in its canonical form; the reserved low
region reads as reset left it (R67: only reset writes it); ACC is not negative (R27). -/
structure Inv (s : State) : Prop where
  canonical : s.mem.wf
  lowRegion : ∀ a, a < Config.programStart → s.mem.read a = resetByte a
  accNonneg : 0 ≤ s.acc

/-- Registers other than those named are unchanged, and so is everything that is no general register. -/
structure OnlyRegs (s t : State) (named : Reg → Prop) : Prop where
  rest : t = { s with v := t.v }
  regs : ∀ r, ¬ named r → t.reg r = s.reg r

/-- The bytes an instruction stores to, as a start address and a number of bytes, computed as its meaning
computes them: FX33 and FX55 store at I (R194, R195); no other instruction stores (R70). -/
def storedRange (i : Instr) (s : State) : Nat × Nat :=
  match i with
  | .ldB _ => (indexAddress s, 3)
  | .ldMemVx x => (indexAddress s, x.val + 1)
  | .cls _ | .ret _ | .sys _ | .jp _ | .call _ | .seImm _ _ | .sneImm _ _ | .seReg _ _ _ | .ldImm _ _
  | .addImm _ _ | .ldReg _ _ | .orReg _ _ | .andReg _ _ | .xorReg _ _ | .addReg _ _ | .subReg _ _
  | .shr _ _ | .subnReg _ _ | .shl _ _ | .sneReg _ _ _ | .ldI _ | .jpV0 _ | .rnd _ _ | .drw _ _ _
  | .skp _ | .sknp _ | .ldVxDt _ | .ldVxK _ | .ldDtVx _ | .ldStVx _ | .addI _ | .ldF _ | .ldVxMem _
  | .nop _ => (0, 0)

/-- The address is one an instruction stores to. -/
def Stores (i : Instr) (s : State) (a : Nat) : Prop :=
  (storedRange i s).1 ≤ a ∧ a < (storedRange i s).1 + (storedRange i s).2

/-- The registers an instruction may write: its destinations, VF where it writes a flag (R21), and V0 to Vx
for FX65 (R196). -/
def writesReg (i : Instr) (r : Reg) : Bool :=
  match i with
  | .ldImm x _ | .addImm x _ | .ldReg x _ | .orReg x _ | .andReg x _ | .xorReg x _ | .rnd x _ | .ldVxDt x
  | .ldVxK x => r == x
  | .addReg x _ | .subReg x _ | .shr x _ | .subnReg x _ | .shl x _ => r == x || r == VF
  | .drw _ _ _ => r == VF
  | .ldVxMem x => decide (r ≤ x)
  | .cls _ | .ret _ | .sys _ | .jp _ | .call _ | .seImm _ _ | .sneImm _ _ | .seReg _ _ _ | .sneReg _ _ _
  | .ldI _ | .jpV0 _ | .skp _ | .sknp _ | .ldDtVx _ | .ldStVx _ | .addI _ | .ldF _ | .ldB _ | .ldMemVx _
  | .nop _ => false

/-- The instruction writes `I` (R22). -/
def writesI : Instr → Bool
  | .ldI _ | .addI _ | .ldF _ => true
  | .cls _ | .ret _ | .sys _ | .jp _ | .call _ | .seImm _ _ | .sneImm _ _ | .seReg _ _ _ | .ldImm _ _
  | .addImm _ _ | .ldReg _ _ | .orReg _ _ | .andReg _ _ | .xorReg _ _ | .addReg _ _ | .subReg _ _
  | .shr _ _ | .subnReg _ _ | .shl _ _ | .sneReg _ _ _ | .jpV0 _ | .rnd _ _ | .drw _ _ _ | .skp _
  | .sknp _ | .ldVxDt _ | .ldVxK _ | .ldDtVx _ | .ldStVx _ | .ldB _ | .ldMemVx _ | .ldVxMem _
  | .nop _ => false

/-- The instruction writes the stack or SP (R36, R38). -/
def writesStack : Instr → Bool
  | .ret _ | .call _ => true
  | .cls _ | .sys _ | .jp _ | .seImm _ _ | .sneImm _ _ | .seReg _ _ _ | .ldImm _ _ | .addImm _ _
  | .ldReg _ _ | .orReg _ _ | .andReg _ _ | .xorReg _ _ | .addReg _ _ | .subReg _ _ | .shr _ _
  | .subnReg _ _ | .shl _ _ | .sneReg _ _ _ | .ldI _ | .jpV0 _ | .rnd _ _ | .drw _ _ _ | .skp _ | .sknp _
  | .ldVxDt _ | .ldVxK _ | .ldDtVx _ | .ldStVx _ | .addI _ | .ldF _ | .ldB _ | .ldMemVx _ | .ldVxMem _
  | .nop _ => false

/-- The instruction writes the frame buffer and the DirtySet (R29, R30). -/
def writesDisplay : Instr → Bool
  | .cls _ | .drw _ _ _ => true
  | .ret _ | .sys _ | .jp _ | .call _ | .seImm _ _ | .sneImm _ _ | .seReg _ _ _ | .ldImm _ _ | .addImm _ _
  | .ldReg _ _ | .orReg _ _ | .andReg _ _ | .xorReg _ _ | .addReg _ _ | .subReg _ _ | .shr _ _
  | .subnReg _ _ | .shl _ _ | .sneReg _ _ _ | .ldI _ | .jpV0 _ | .rnd _ _ | .skp _ | .sknp _ | .ldVxDt _
  | .ldVxK _ | .ldDtVx _ | .ldStVx _ | .addI _ | .ldF _ | .ldB _ | .ldMemVx _ | .ldVxMem _
  | .nop _ => false

/-- The fault conditions of rule R250 that a handler checks: the instruction raises the code in this state. FETCH_OUT_OF_RANGE is
the cycle's own (R121). -/
def Raises (i : Instr) (s : State) (c : FaultCode) : Prop :=
  match i with
  | .drw _ _ n => c = .readOutOfRange ∧ 0 < n.toNat ∧ s.i.toNat + n.toNat - 1 > 0xFFF
  | .ldVxMem x => c = .readOutOfRange ∧ s.i.toNat + x.val > 0xFFF
  | .ldB _ => (c = .writeOutOfRange ∧ s.i.toNat + 2 > 0xFFF) ∨ (c = .reservedWrite ∧ s.i.toNat < 0x200)
  | .ldMemVx x =>
    (c = .writeOutOfRange ∧ s.i.toNat + x.val > 0xFFF) ∨ (c = .reservedWrite ∧ s.i.toNat < 0x200)
  | .call _ => c = .stackOverflow ∧ s.sp.val = 16
  | .ret _ => c = .stackUnderflow ∧ s.sp.val = 0
  | .skp x | .sknp x => c = .keyIndexOutOfRange ∧ (s.reg x).toNat > 0xF
  | .cls _ | .sys _ | .jp _ | .seImm _ _ | .sneImm _ _ | .seReg _ _ _ | .ldImm _ _ | .addImm _ _
  | .ldReg _ _ | .orReg _ _ | .andReg _ _ | .xorReg _ _ | .addReg _ _ | .subReg _ _ | .shr _ _
  | .subnReg _ _ | .shl _ _ | .sneReg _ _ _ | .ldI _ | .jpV0 _ | .rnd _ _ | .ldVxDt _ | .ldVxK _
  | .ldDtVx _ | .ldStVx _ | .addI _ | .ldF _ | .nop _ => False

/-- The instruction writes pc (R36): jumps, calls, returns, skips and the key wait. -/
def writesPc : Instr → Bool
  | .ret _ | .jp _ | .call _ | .seImm _ _ | .sneImm _ _ | .seReg _ _ _ | .sneReg _ _ _ | .jpV0 _ | .skp _
  | .sknp _ | .ldVxK _ => true
  | .cls _ | .sys _ | .ldImm _ _ | .addImm _ _ | .ldReg _ _ | .orReg _ _ | .andReg _ _ | .xorReg _ _
  | .addReg _ _ | .subReg _ _ | .shr _ _ | .subnReg _ _ | .shl _ _ | .ldI _ | .rnd _ _ | .drw _ _ _
  | .ldVxDt _ | .ldDtVx _ | .ldStVx _ | .addI _ | .ldF _ | .ldB _ | .ldMemVx _ | .ldVxMem _
  | .nop _ => false

/-- End point (a) of a run (R291): a fault is recorded. -/
def Faulted (s : State) : Prop := s.fault.isSome

/-- End point (b) of a run (R291): no fault, and the word at pc is a jump to itself. -/
def Parked (s : State) : Prop :=
  s.fault = none ∧ ∃ nnn : Addr12, fetchWord s = some (encode (.jp nnn)) ∧ zext16 nnn = s.pc

end Sys2Proof.Machine
end

