-- ==== Sys2Proof/Certificates/Slice0/Obligations.lean ====
section
/-! DEFINITION. The statements for the provers. In a statement about `exec`, the state is the one a handler runs in:
pc holds p + 2 and CUR holds the word (R15). `runInstr` is the whole cycle of a fetched instruction. -/

open Sys2Proof Sys2Proof.Machine

/-! ## Encoding and decoding (30_encoding) -/

/-- Decoding an encoded well-formed instruction gives it back, every operand at every value (R90 to R101). -/
def Obligations.DecodeOfEncode : Prop :=
  ∀ i : Instr, i.wellFormed = true → decode (encode i) = i

/-- Every word decodes to a well-formed instruction, and encoding that gives the word back: decoding is total
and loses no bit (R94). -/
def Obligations.EncodeOfDecode : Prop :=
  ∀ w : Word, (decode w).wellFormed = true ∧ encode (decode w) = w

/-- The two-level decoder agrees with the opcode table: the first row, in table order, whose bits under its mask
match is the decoded instruction's row (R94, R102). -/
def Obligations.DecoderFollowsOpcodeTable : Prop :=
  ∀ w : Word, (selectRow w).map (·.mnemonic) = some (decode w).mnemonic

/-- Family 0 (R96): the low byte alone selects the handler, w[11:8] is not examined, and no word is a no-op. -/
def Obligations.FamilyZeroByLowByte : Prop :=
  (∀ a : Nibble, decode (wordFXKK 0x0 a 0xE0) = .cls a ∧ decode (wordFXKK 0x0 a 0xEE) = .ret a) ∧
  ∀ nnn : Addr12,
    (nnn.extractLsb' 0 8 ≠ 0xE0#8 → nnn.extractLsb' 0 8 ≠ 0xEE#8 → decode (wordFNNN 0x0 nnn) = .sys nnn) ∧
    ∀ w : Word, decode (wordFNNN 0x0 nnn) ≠ .nop w

/-- Family 8 (R97): the low nibble selects one of nine handlers, or the no-op handler. -/
def Obligations.FamilyEightByLowNibble : Prop :=
  ∀ x y : Reg,
    decode (wordFXYN 0x8 (regNibble x) (regNibble y) 0x0) = .ldReg x y ∧
    decode (wordFXYN 0x8 (regNibble x) (regNibble y) 0x1) = .orReg x y ∧
    decode (wordFXYN 0x8 (regNibble x) (regNibble y) 0x2) = .andReg x y ∧
    decode (wordFXYN 0x8 (regNibble x) (regNibble y) 0x3) = .xorReg x y ∧
    decode (wordFXYN 0x8 (regNibble x) (regNibble y) 0x4) = .addReg x y ∧
    decode (wordFXYN 0x8 (regNibble x) (regNibble y) 0x5) = .subReg x y ∧
    decode (wordFXYN 0x8 (regNibble x) (regNibble y) 0x6) = .shr x y ∧
    decode (wordFXYN 0x8 (regNibble x) (regNibble y) 0x7) = .subnReg x y ∧
    decode (wordFXYN 0x8 (regNibble x) (regNibble y) 0xE) = .shl x y ∧
    ∀ n : Nibble, n ∈ [0x8#4, 0x9#4, 0xA#4, 0xB#4, 0xC#4, 0xD#4, 0xF#4] →
      decode (wordFXYN 0x8 (regNibble x) (regNibble y) n) =
        .nop (wordFXYN 0x8 (regNibble x) (regNibble y) n)

/-- Families E and F (R98, R99): the low byte selects one of two, or of nine, handlers, or the no-op handler. -/
def Obligations.FamiliesEAndFByLowByte : Prop :=
  ∀ x : Reg,
    decode (wordFXKK 0xE (regNibble x) 0x9E) = .skp x ∧
    decode (wordFXKK 0xE (regNibble x) 0xA1) = .sknp x ∧
    (∀ kk : Byte, kk ∉ [0x9E#8, 0xA1#8] →
      decode (wordFXKK 0xE (regNibble x) kk) = .nop (wordFXKK 0xE (regNibble x) kk)) ∧
    decode (wordFXKK 0xF (regNibble x) 0x07) = .ldVxDt x ∧
    decode (wordFXKK 0xF (regNibble x) 0x0A) = .ldVxK x ∧
    decode (wordFXKK 0xF (regNibble x) 0x15) = .ldDtVx x ∧
    decode (wordFXKK 0xF (regNibble x) 0x18) = .ldStVx x ∧
    decode (wordFXKK 0xF (regNibble x) 0x1E) = .addI x ∧
    decode (wordFXKK 0xF (regNibble x) 0x29) = .ldF x ∧
    decode (wordFXKK 0xF (regNibble x) 0x33) = .ldB x ∧
    decode (wordFXKK 0xF (regNibble x) 0x55) = .ldMemVx x ∧
    decode (wordFXKK 0xF (regNibble x) 0x65) = .ldVxMem x ∧
    ∀ kk : Byte, kk ∉ [0x07#8, 0x0A#8, 0x15#8, 0x18#8, 0x1E#8, 0x29#8, 0x33#8, 0x55#8, 0x65#8] →
      decode (wordFXKK 0xF (regNibble x) kk) = .nop (wordFXKK 0xF (regNibble x) kk)

/-- Families 5 and 9 (R100): no second match; the low nibble is ignored by the decoder and by the handler. -/
def Obligations.FamiliesFiveAndNineIgnoreLowNibble : Prop :=
  ∀ (x y : Reg) (n m : Nibble) (s : State),
    decode (wordFXYN 0x5 (regNibble x) (regNibble y) n) = .seReg x y n ∧
    decode (wordFXYN 0x9 (regNibble x) (regNibble y) n) = .sneReg x y n ∧
    exec (.seReg x y n) s = exec (.seReg x y m) s ∧ exec (.sneReg x y n) s = exec (.sneReg x y m) s

/-- The words of the no-op handler (R101), with the number of them in each family: 1792, 4064 and 3952. -/
def Obligations.UnmatchedWordsAndTheirCounts : Prop :=
  (∀ w : Word, decode w = .nop w ↔
    (fieldF w = 0x8 ∧ fieldN w ∈ [0x8#4, 0x9#4, 0xA#4, 0xB#4, 0xC#4, 0xD#4, 0xF#4]) ∨
    (fieldF w = 0xE ∧ fieldKK w ∉ [0x9E#8, 0xA1#8]) ∨
    (fieldF w = 0xF ∧
      fieldKK w ∉ [0x07#8, 0x0A#8, 0x15#8, 0x18#8, 0x1E#8, 0x29#8, 0x33#8, 0x55#8, 0x65#8])) ∧
  (List.range 4096).countP (fun k => decode (BitVec.ofNat 16 (0x8000 + k)) == .nop (BitVec.ofNat 16 (0x8000 + k))) = 1792 ∧
  (List.range 4096).countP (fun k => decode (BitVec.ofNat 16 (0xE000 + k)) == .nop (BitVec.ofNat 16 (0xE000 + k))) = 4064 ∧
  (List.range 4096).countP (fun k => decode (BitVec.ofNat 16 (0xF000 + k)) == .nop (BitVec.ofNat 16 (0xF000 + k))) = 3952

/-- Words written out from the encodings of R95 decode to their instructions (95_test_vectors, family D). -/
def Obligations.SampleWordsDecode : Prop :=
  decode 0x01E0 = .cls 1 ∧ decode 0x0EEE = .ret 0xE ∧ decode 0x00E1 = .sys 0x0E1 ∧ decode 0x2ABC = .call 0xABC ∧
  decode 0x5AB7 = .seReg 0xA 0xB 7 ∧ decode 0x7A42 = .addImm 0xA 0x42 ∧ decode 0x8AB7 = .subnReg 0xA 0xB ∧
  decode 0xAABC = .ldI 0xABC ∧ decode 0xCA42 = .rnd 0xA 0x42 ∧ decode 0xDAB5 = .drw 0xA 0xB 5 ∧
  decode 0xEAA1 = .sknp 0xA ∧ decode 0xFA33 = .ldB 0xA ∧ decode 0xFA75 = .nop 0xFA75

/-! ## The cycle and its faults (40_cycle, 60_exceptions) -/

/-- A step runs the decoded instruction: where no fault is recorded and the two bytes at pc decode to a
well-formed instruction i, `exec i` runs in the state with pc advanced by 2 and CUR set to the word, and the step
ends as `finishCycle` says: the fault it recorded rejects the cycle, else the timer check follows. The elapsed time
is the model's free value (log entry 1). -/
def Obligations.StepRunsTheDecodedInstruction : Prop :=
  ∀ (s : State) (i : Instr), s.fault = none → s.pc.toNat + 1 ≤ 0xFFF → i.wellFormed = true →
    decodeBytes [s.mem.read s.pc.toNat, s.mem.read (s.pc.toNat + 1)] = .ok (i, []) →
    ∃ t, exec i { s with pc := s.pc + 2, cur := encode i } = .next t ∧
      step s = .next (finishCycle (nextElapsed s) s t)

/-- The cycle (R121, R122): a recorded fault is answered without a step; a fetch past 0xFFF is rejected; otherwise
the handler of the big-endian word at pc runs with pc = (p + 2) mod 2^16 and CUR = w, and then the cycle is
rejected with everything but FAULT as before, or the timer check runs. The counter `dtDraws` is the model's own (log
entry 1). -/
def Obligations.CycleFollowsItsSteps : Prop :=
  ∀ (elapsed : Rat) (s : State),
    (∀ r, s.fault = some r → cycle elapsed s = .fault (.latched r.code)) ∧
    (s.fault = none → s.pc.toNat + 1 > 0xFFF →
      cycle elapsed s = .next { s with fault := some { code := .fetchOutOfRange, pc := s.pc, word := none } }) ∧
    (s.fault = none → s.pc.toNat + 1 ≤ 0xFFF →
      ∀ w : Word, w = (s.mem.read s.pc.toNat ++ s.mem.read (s.pc.toNat + 1)) →
      ∃ t, exec (decode w) { s with pc := BitVec.ofNat 16 ((s.pc.toNat + 2) % 2 ^ 16), cur := w } = .next t ∧
        (t.fault = none → cycle elapsed s = .next { timerCheck elapsed t with dtDraws := t.dtDraws + 1 }) ∧
        ∀ r, t.fault = some r → cycle elapsed s = .next { s with fault := some r })

/-- Every core without a recorded fault completes or rejects its next cycle: no word stops it, and no step is ever
refused (R101, R127). -/
def Obligations.StepAnswersUnlessFaulted : Prop :=
  ∀ s : State, (s.fault = none → ∃ t, step s = .next t) ∧ ∀ r, step s ≠ .refused r

/-- A rejected cycle changes FAULT alone, and the record holds the faulting instruction's address, which is the
unchanged pc, and its word, absent for a fetch fault (R126, R251). -/
def Obligations.RejectedCycleChangesOnlyFault : Prop :=
  ∀ (elapsed : Rat) (s t : State) (r : FaultRecord), cycle elapsed s = .next t → t.fault = some r →
    t = { s with fault := some r } ∧ r.pc = s.pc ∧ t.pc = r.pc ∧ r.word = fetchWord s ∧
      (r.word = none ↔ r.code = .fetchOutOfRange)

/-- The fault record is sticky (R252): a cycle answers it and changes nothing, every other operation works and, but
for reset, keeps it, and reset clears it. -/
def Obligations.FaultRecordIsSticky : Prop :=
  ∀ (s : State) (r : FaultRecord), s.fault = some r →
    (∀ elapsed, transact (.cycle elapsed) s = .next (.cycle (.fault r.code), s)) ∧
    (∀ (op : HostOp) (rep : HostReply) (t : State), transact op s = .next (rep, t) → op ≠ .reset → t.fault = some r) ∧
    (∀ op : HostOp, (∀ e, op ≠ .cycle e) → (∀ k b, op = .setKey k b → k < 16) →
      (∀ x y, op = .readPixel x y → x < 64 ∧ y < 32) → ∃ rep t, transact op s = .next (rep, t)) ∧
    ∃ t, transact .reset s = .next (.done, t) ∧ t.fault = none

/-- The handlers raise exactly the faults of R250's table, under exactly its conditions, and every other instruction
raises none; at most one condition holds (R253). -/
def Obligations.HandlersRaiseExactlyTheTable : Prop :=
  (∀ (i : Instr) (s t : State) (c : FaultCode), s.fault = none → exec i s = .next t →
    (t.fault.map (·.code) = some c ↔ Raises i s c)) ∧
  ∀ (i : Instr) (s : State) (c d : FaultCode), Raises i s c → Raises i s d → c = d

/-! ## Instructions without effect, and control flow (40_cycle, 41_control_flow) -/

/-- The no-op handler and SYS change nothing; the cycle around them advances pc by 2, sets CUR and runs the timer
check (R124, R125). The counter `dtDraws` is the model's own (log entry 1). -/
def Obligations.NoOpAndSysHaveNoEffect : Prop :=
  (∀ (w : Word) (s : State), exec (.nop w) s = .next s) ∧
  (∀ (nnn : Addr12) (s : State), exec (.sys nnn) s = .next s) ∧
  ∀ (elapsed : Rat) (s : State) (w : Word), s.fault = none → fetchWord s = some w →
    (isUnmatchedWord w = true ∨ ∃ nnn, isSysAddress nnn = true ∧ w = wordFNNN 0x0 nnn) →
    cycle elapsed s =
      .next { timerCheck elapsed s with pc := s.pc + 2, cur := w, dtDraws := s.dtDraws + 1 }

/-- RET (R141). -/
def Obligations.ReturnPopsIntoPc : Prop :=
  ∀ (a : Nibble) (s : State),
    decode (wordFXKK 0x0 a 0xEE) = .ret a ∧
    (∀ h : 0 < s.sp.val, ∃ t, exec (.ret a) s = .next t ∧ t.sp.val = s.sp.val - 1 ∧
      t.pc = s.stack[s.sp.val - 1]'(by omega) ∧ t = { s with sp := t.sp, pc := t.pc }) ∧
    (s.fault = none → s.sp.val = 0 → ∀ (elapsed : Rat) (w : Word), runInstr elapsed (.ret a) w s =
      .next { s with fault := some { code := .stackUnderflow, pc := s.pc, word := some w } })

/-- JP nnn and JP V0, nnn (R142, R148): the sum with V0 is not reduced to 12 bits. -/
def Obligations.JumpsSetPc : Prop :=
  ∀ (nnn : Addr12) (s : State),
    decode (wordFNNN 0x1 nnn) = .jp nnn ∧ decode (wordFNNN 0xB nnn) = .jpV0 nnn ∧
    (∃ t, exec (.jp nnn) s = .next t ∧ t.pc.toNat = nnn.toNat ∧ t = { s with pc := t.pc }) ∧
    ∃ t, exec (.jpV0 nnn) s = .next t ∧ t.pc.toNat = nnn.toNat + (s.reg 0).toNat ∧ t = { s with pc := t.pc }

/-- CALL nnn (R143): pc, which is p + 2, goes to stack[SP]. -/
def Obligations.CallPushesAndJumps : Prop :=
  ∀ (nnn : Addr12) (s : State),
    decode (wordFNNN 0x2 nnn) = .call nnn ∧
    (∀ h : s.sp.val < 16, ∃ t, exec (.call nnn) s = .next t ∧ t.pc.toNat = nnn.toNat ∧
      t.sp.val = s.sp.val + 1 ∧ t.stack = s.stack.set s.sp.val s.pc ∧
      t = { s with pc := t.pc, sp := t.sp, stack := t.stack }) ∧
    (s.fault = none → s.sp.val = 16 → ∀ (elapsed : Rat) (w : Word), runInstr elapsed (.call nnn) w s =
      .next { s with fault := some { code := .stackOverflow, pc := s.pc, word := some w } })

/-- SE and SNE with an immediate and with a register (R144 to R147): every value of the ignored low nibble. -/
def Obligations.SkipsOnComparison : Prop :=
  ∀ (x y : Reg) (kk : Byte) (n : Nibble) (s : State),
    (decode (wordFXKK 0x3 (regNibble x) kk) = .seImm x kk ∧ decode (wordFXKK 0x4 (regNibble x) kk) = .sneImm x kk ∧
      decode (wordFXYN 0x5 (regNibble x) (regNibble y) n) = .seReg x y n ∧
      decode (wordFXYN 0x9 (regNibble x) (regNibble y) n) = .sneReg x y n) ∧
    (∃ t, exec (.seImm x kk) s = .next t ∧ t.pc = (if s.reg x = kk then s.pc + 2 else s.pc) ∧
      t = { s with pc := t.pc }) ∧
    (∃ t, exec (.sneImm x kk) s = .next t ∧ t.pc = (if s.reg x ≠ kk then s.pc + 2 else s.pc) ∧
      t = { s with pc := t.pc }) ∧
    (∃ t, exec (.seReg x y n) s = .next t ∧ t.pc = (if s.reg x = s.reg y then s.pc + 2 else s.pc) ∧
      t = { s with pc := t.pc }) ∧
    ∃ t, exec (.sneReg x y n) s = .next t ∧ t.pc = (if s.reg x ≠ s.reg y then s.pc + 2 else s.pc) ∧
      t = { s with pc := t.pc }

/-- One whole cycle at s, whatever time has passed, completes with no fault and leaves pc = p + 4 if `taken`, else
p + 2, as exact numbers. -/
def CycleSkipsWhen (s : State) (taken : Bool) : Prop :=
  ∀ elapsed : Rat, ∃ t, cycle elapsed s = .next t ∧ t.fault = none ∧
    t.pc.toNat = (if taken then s.pc.toNat + 4 else s.pc.toNat + 2)

/-- The skip primitive seen over a whole cycle of each of the six skips (R140): a taken skip leaves p + 4, one not
taken p + 2; neither sum wraps, and neither faults. SKP and SKNP with V[x] below 16 (R230). -/
def Obligations.SkipPassesExactlyOneWord : Prop :=
  ∀ (x y : Reg) (kk : Byte) (n : Nibble) (s : State), s.fault = none →
    (fetchWord s = some (wordFXKK 0x3 (regNibble x) kk) → CycleSkipsWhen s (s.reg x = kk)) ∧
    (fetchWord s = some (wordFXKK 0x4 (regNibble x) kk) → CycleSkipsWhen s (s.reg x ≠ kk)) ∧
    (fetchWord s = some (wordFXYN 0x5 (regNibble x) (regNibble y) n) → CycleSkipsWhen s (s.reg x = s.reg y)) ∧
    (fetchWord s = some (wordFXYN 0x9 (regNibble x) (regNibble y) n) → CycleSkipsWhen s (s.reg x ≠ s.reg y)) ∧
    ∀ h : (s.reg x).toNat < 16,
      (fetchWord s = some (wordFXKK 0xE (regNibble x) 0x9E) → CycleSkipsWhen s s.key[(s.reg x).toNat]) ∧
      (fetchWord s = some (wordFXKK 0xE (regNibble x) 0xA1) → CycleSkipsWhen s (!s.key[(s.reg x).toNat]))

/-- Call and return (R149, which the spec marks as its own inference from R141 and R143): a CALL followed at the
called address by a RET leaves pc = p + 2, SP as before and stack[SP] = p + 2. -/
def Obligations.CallThenReturn : Prop :=
  ∀ (e1 e2 : Rat) (s : State) (nnn : Addr12) (a : Nibble), s.fault = none →
    fetchWord s = some (wordFNNN 0x2 nnn) → nnn.toNat + 1 ≤ 0xFFF →
    wordOfBytes (s.mem.read nnn.toNat) (s.mem.read (nnn.toNat + 1)) = wordFXKK 0x0 a 0xEE →
    ∀ h : s.sp.val < 16, ∃ t u, cycle e1 s = .next t ∧ t.pc.toNat = nnn.toNat ∧ cycle e2 t = .next u ∧
      u.pc.toNat = s.pc.toNat + 2 ∧ u.sp = s.sp ∧ u.stack[s.sp.val] = s.pc + 2 ∧ u.fault = none

/-! ## Register arithmetic and logic (42_alu) -/

/-- LD Vx, kk, LD Vx, Vy and ADD Vx, kk (R161, R162, R163): no flag; VF changes only as the destination. -/
def Obligations.LoadAndAddImmediate : Prop :=
  ∀ (x y : Reg) (kk : Byte) (s : State),
    decode (wordFXKK 0x6 (regNibble x) kk) = .ldImm x kk ∧ decode (wordFXKK 0x7 (regNibble x) kk) = .addImm x kk ∧
    decode (wordFXYN 0x8 (regNibble x) (regNibble y) 0x0) = .ldReg x y ∧
    (∃ t, exec (.ldImm x kk) s = .next t ∧ t.reg x = kk ∧ OnlyRegs s t (· = x)) ∧
    (∃ t, exec (.addImm x kk) s = .next t ∧ (t.reg x).toNat = ((s.reg x).toNat + kk.toNat) % 256 ∧
      OnlyRegs s t (· = x)) ∧
    ∃ t, exec (.ldReg x y) s = .next t ∧ t.reg x = s.reg y ∧ OnlyRegs s t (· = x)

/-- OR, AND and XOR (R164, R165, R166): bit by bit; VF changes only as the destination. -/
def Obligations.BitwiseLogic : Prop :=
  ∀ (x y : Reg) (s : State),
    decode (wordFXYN 0x8 (regNibble x) (regNibble y) 0x1) = .orReg x y ∧
    decode (wordFXYN 0x8 (regNibble x) (regNibble y) 0x2) = .andReg x y ∧
    decode (wordFXYN 0x8 (regNibble x) (regNibble y) 0x3) = .xorReg x y ∧
    (∃ t, exec (.orReg x y) s = .next t ∧ OnlyRegs s t (· = x) ∧
      ∀ k, (t.reg x).getLsbD k = ((s.reg x).getLsbD k || (s.reg y).getLsbD k)) ∧
    (∃ t, exec (.andReg x y) s = .next t ∧ OnlyRegs s t (· = x) ∧
      ∀ k, (t.reg x).getLsbD k = ((s.reg x).getLsbD k && (s.reg y).getLsbD k)) ∧
    ∃ t, exec (.xorReg x y) s = .next t ∧ OnlyRegs s t (· = x) ∧
      ∀ k, (t.reg x).getLsbD k = ((s.reg x).getLsbD k ^^ (s.reg y).getLsbD k)

/-- ADD Vx, Vy (R167): the sum mod 256 unless x = F, and VF = 1 exactly if the sum exceeds 255. -/
def Obligations.AddRegistersAndCarry : Prop :=
  ∀ (x y : Reg) (s : State), decode (wordFXYN 0x8 (regNibble x) (regNibble y) 0x4) = .addReg x y ∧
    ∃ t, exec (.addReg x y) s = .next t ∧ OnlyRegs s t (fun r => r = x ∨ r = VF) ∧
      (x ≠ VF → (t.reg x).toNat = ((s.reg x).toNat + (s.reg y).toNat) % 256) ∧
      (t.reg VF).toNat = (if (s.reg x).toNat + (s.reg y).toNat > 255 then 1 else 0)

/-- SUB Vx, Vy and SUBN Vx, Vy (R168, R170): the difference mod 256 unless x = F, and VF = 1 exactly if the minuend
is strictly greater. -/
def Obligations.SubtractAndStrictNoBorrow : Prop :=
  ∀ (x y : Reg) (s : State),
    decode (wordFXYN 0x8 (regNibble x) (regNibble y) 0x5) = .subReg x y ∧
    decode (wordFXYN 0x8 (regNibble x) (regNibble y) 0x7) = .subnReg x y ∧
    (∃ t, exec (.subReg x y) s = .next t ∧ OnlyRegs s t (fun r => r = x ∨ r = VF) ∧
      (x ≠ VF → ((t.reg x).toNat : Int) = (((s.reg x).toNat : Int) - (s.reg y).toNat) % 256) ∧
      (t.reg VF).toNat = (if (s.reg x).toNat > (s.reg y).toNat then 1 else 0)) ∧
    ∃ t, exec (.subnReg x y) s = .next t ∧ OnlyRegs s t (fun r => r = x ∨ r = VF) ∧
      (x ≠ VF → ((t.reg x).toNat : Int) = (((s.reg y).toNat : Int) - (s.reg x).toNat) % 256) ∧
      (t.reg VF).toNat = (if (s.reg y).toNat > (s.reg x).toNat then 1 else 0)

/-- SHR and SHL (R169, R171): Vx halved, or doubled mod 256, unless x = F; VF is the bit shifted out; Vy has no
effect. -/
def Obligations.ShiftsOfVx : Prop :=
  ∀ (x y : Reg) (s : State),
    decode (wordFXYN 0x8 (regNibble x) (regNibble y) 0x6) = .shr x y ∧
    decode (wordFXYN 0x8 (regNibble x) (regNibble y) 0xE) = .shl x y ∧
    (∀ z, exec (.shr x y) s = exec (.shr x z) s ∧ exec (.shl x y) s = exec (.shl x z) s) ∧
    (∃ t, exec (.shr x y) s = .next t ∧ OnlyRegs s t (fun r => r = x ∨ r = VF) ∧
      (x ≠ VF → (t.reg x).toNat = (s.reg x).toNat / 2) ∧ (t.reg VF).toNat = (s.reg x).toNat % 2) ∧
    ∃ t, exec (.shl x y) s = .next t ∧ OnlyRegs s t (fun r => r = x ∨ r = VF) ∧
      (x ≠ VF → (t.reg x).toNat = (s.reg x).toNat * 2 % 256) ∧ (t.reg VF).toNat = (s.reg x).toNat / 128

/-- RND Vx, kk (R172): one draw, masked. The byte drawn is a free value, so this holds for every byte; with
kk = 0 the result is 0 whatever the draw. The counter of draws is the model's own (log entry 2). -/
def Obligations.RandomAnd : Prop :=
  ∀ (x : Reg) (kk : Byte) (s : State), decode (wordFXKK 0xC (regNibble x) kk) = .rnd x kk ∧
    ∃ t, exec (.rnd x kk) s = .next t ∧ t.reg x = Config.randomByte s.rndDraws &&& kk ∧
      (kk = 0 → t.reg x = 0) ∧ (∀ r, r ≠ x → t.reg r = s.reg r) ∧
      t = { s with v := t.v, rndDraws := s.rndDraws + 1 }

/-! ## The index register and memory transfers (43_index_memory) -/

/-- LD I, nnn and ADD I, Vx (R191, R192): mod 2^16, VF not written. -/
def Obligations.LoadAndAddIndex : Prop :=
  ∀ (x : Reg) (nnn : Addr12) (s : State),
    decode (wordFNNN 0xA nnn) = .ldI nnn ∧ decode (wordFXKK 0xF (regNibble x) 0x1E) = .addI x ∧
    (∃ t, exec (.ldI nnn) s = .next t ∧ t.i.toNat = nnn.toNat ∧ t = { s with i := t.i }) ∧
    ∃ t, exec (.addI x) s = .next t ∧ t.i.toNat = (s.i.toNat + (s.reg x).toNat) % 2 ^ 16 ∧ t = { s with i := t.i }

/-- LD F, Vx (R193): FONT_BASE + 5 V[x], not masked and never wrapped, for every legal FONT_BASE. -/
def Obligations.IndexToGlyph : Prop :=
  ∀ (x : Reg) (s : State), decode (wordFXKK 0xF (regNibble x) 0x29) = .ldF x ∧
    ∃ t, exec (.ldF x) s = .next t ∧ t.i.toNat = Config.fontBase + (s.reg x).toNat * 5 ∧ t = { s with i := t.i }

/-- LD B, Vx (R194): hundreds, tens and ones at I, I+1 and I+2, every other byte as before, or the fault. -/
def Obligations.StoreDecimalDigits : Prop :=
  ∀ (x : Reg) (s : State), decode (wordFXKK 0xF (regNibble x) 0x33) = .ldB x ∧
    (0x200 ≤ s.i.toNat → s.i.toNat + 2 ≤ 0xFFF → ∃ t, exec (.ldB x) s = .next t ∧
      (t.mem.read s.i.toNat).toNat = (s.reg x).toNat / 100 ∧
      (t.mem.read (s.i.toNat + 1)).toNat = (s.reg x).toNat / 10 % 10 ∧
      (t.mem.read (s.i.toNat + 2)).toNat = (s.reg x).toNat % 10 ∧
      (∀ a, a < s.i.toNat ∨ s.i.toNat + 2 < a → t.mem.read a = s.mem.read a) ∧ t = { s with mem := t.mem }) ∧
    ∀ (elapsed : Rat) (w : Word), s.fault = none →
      (s.i.toNat + 2 > 0xFFF → runInstr elapsed (.ldB x) w s =
        .next { s with fault := some { code := .writeOutOfRange, pc := s.pc, word := some w } }) ∧
      (s.i.toNat < 0x200 → runInstr elapsed (.ldB x) w s =
        .next { s with fault := some { code := .reservedWrite, pc := s.pc, word := some w } })

/-- LD [I], Vx (R195): V0 to Vx at I to I+x, every other byte as before, I unchanged, or the fault. -/
def Obligations.BlockStore : Prop :=
  ∀ (x : Reg) (s : State), decode (wordFXKK 0xF (regNibble x) 0x55) = .ldMemVx x ∧
    (0x200 ≤ s.i.toNat → s.i.toNat + x.val ≤ 0xFFF → ∃ t, exec (.ldMemVx x) s = .next t ∧
      (∀ r, r ≤ x → t.mem.read (s.i.toNat + r.val) = s.reg r) ∧
      (∀ a, a < s.i.toNat ∨ s.i.toNat + x.val < a → t.mem.read a = s.mem.read a) ∧ t = { s with mem := t.mem }) ∧
    ∀ (elapsed : Rat) (w : Word), s.fault = none →
      (s.i.toNat + x.val > 0xFFF → runInstr elapsed (.ldMemVx x) w s =
        .next { s with fault := some { code := .writeOutOfRange, pc := s.pc, word := some w } }) ∧
      (s.i.toNat < 0x200 → runInstr elapsed (.ldMemVx x) w s =
        .next { s with fault := some { code := .reservedWrite, pc := s.pc, word := some w } })

/-- LD Vx, [I] (R196): MEM[I..I+x] to V0 to Vx, the registers above Vx and I unchanged, or the fault. -/
def Obligations.BlockLoad : Prop :=
  ∀ (x : Reg) (s : State), decode (wordFXKK 0xF (regNibble x) 0x65) = .ldVxMem x ∧
    (s.i.toNat + x.val ≤ 0xFFF → ∃ t, exec (.ldVxMem x) s = .next t ∧
      (∀ r, r ≤ x → t.reg r = s.mem.read (s.i.toNat + r.val)) ∧ OnlyRegs s t (· ≤ x)) ∧
    ∀ (elapsed : Rat) (w : Word), s.fault = none → s.i.toNat + x.val > 0xFFF →
      runInstr elapsed (.ldVxMem x) w s =
        .next { s with fault := some { code := .readOutOfRange, pc := s.pc, word := some w } }

/-- Fetch is coherent with stores (R73, which the spec marks as derived; its FX55 case): a word whose two bytes a
block store wrote is fetched as written. -/
def Obligations.FetchSeesTheStore : Prop :=
  ∀ (x : Reg) (s t u : State) (k : Nat) (h : k < x.val), 0x200 ≤ s.i.toNat → s.i.toNat + x.val ≤ 0xFFF →
    exec (.ldMemVx x) s = .next t → u.mem = t.mem → u.pc.toNat = s.i.toNat + k →
    fetchWord u = some (wordOfBytes (s.reg ⟨k, by omega⟩) (s.reg ⟨k + 1, by omega⟩))

/-! ## Display (44_display) -/

/-- CLS (R211): every pixel off; the lit ones are appended once each, row by row and from the left; VF and all
else unchanged. -/
def Obligations.ClearDisplay : Prop :=
  ∀ (a : Nibble) (s : State), decode (wordFXKK 0x0 a 0xE0) = .cls a ∧
    ∃ t l, exec (.cls a) s = .next t ∧ (∀ p, FrameBuffer.pixel t.fb p = false) ∧ t.dirty = s.dirty ++ l ∧
      (∀ p, p ∈ l ↔ FrameBuffer.pixel s.fb p = true) ∧
      l.Pairwise (fun p q => p.2 < q.2 ∨ (p.2 = q.2 ∧ p.1 < q.1)) ∧ t = { s with fb := t.fb, dirty := t.dirty }

/-- DRW Vx, Vy, n (R212, R213): the 1 bits of n rows from I, at wrapped coordinates, inverted and appended in
order; VF is the collision flag. With n = 0 nothing is read and VF is 0. A range past 0xFFF is a fault. -/
def Obligations.DrawSprite : Prop :=
  ∀ (x y : Reg) (n : Nibble) (s : State),
    decode (wordFXYN 0xD (regNibble x) (regNibble y) n) = .drw x y n ∧
    (n = 0 ∨ s.i.toNat + n.toNat - 1 ≤ 0xFFF → ∃ t l, exec (.drw x y n) s = .next t ∧
      l = (List.range n.toNat).flatMap (fun r =>
        ((List.range 8).filter (fun col => (s.mem.read (s.i.toNat + r)).getLsbD (7 - col))).map (fun col =>
          ((Fin.ofNat 64 ((s.reg x).toNat + col), Fin.ofNat 32 ((s.reg y).toNat + r)) : Pixel))) ∧
      t.dirty = s.dirty ++ l ∧
      (∀ p, FrameBuffer.pixel t.fb p = (FrameBuffer.pixel s.fb p ^^ decide (p ∈ l))) ∧
      ((∃ p ∈ l, FrameBuffer.pixel s.fb p = true) → t.reg VF = 1) ∧
      ((∀ p ∈ l, FrameBuffer.pixel s.fb p = false) → t.reg VF = 0) ∧
      (∀ r, r ≠ VF → t.reg r = s.reg r) ∧ t = { s with v := t.v, fb := t.fb, dirty := t.dirty }) ∧
    (∀ (elapsed : Rat) (w : Word), s.fault = none → n ≠ 0 → s.i.toNat + n.toNat - 1 > 0xFFF →
      runInstr elapsed (.drw x y n) w s =
        .next { s with fault := some { code := .readOutOfRange, pc := s.pc, word := some w } })

/-- Drawing twice (R214, which the spec marks as its own inference from R212): with neither coordinate in VF the
second of two draws in a row restores every pixel; if the covered pixels were off and the sprite has a 1 bit, VF is
0 after the first and 1 after the second. -/
def Obligations.DrawingTwiceRestores : Prop :=
  ∀ (x y : Reg) (n : Nibble) (s : State) (elapsed : Rat) (w : Word), x ≠ VF → y ≠ VF →
    n = 0 ∨ s.i.toNat + n.toNat - 1 ≤ 0xFFF →
    ∃ t u, exec (.drw x y n) s = .next t ∧ exec (.drw x y n) ((completeCycle elapsed t).advance w) = .next u ∧
      u.fb = s.fb ∧
      ((∀ p ∈ t.dirty.drop s.dirty.length, FrameBuffer.pixel s.fb p = false) → t.dirty ≠ s.dirty →
        t.reg VF = 0 ∧ u.reg VF = 1)

/-- The DirtySet is exact (R30, R210): a step appends each pixel it changed, once, and no other. -/
def Obligations.DirtySetRecordsExactlyTheChanges : Prop :=
  ∀ s t : State, step s = .next t → ∃ l, t.dirty = s.dirty ++ l ∧ l.Nodup ∧
    ∀ p, FrameBuffer.pixel t.fb p ≠ FrameBuffer.pixel s.fb p ↔ p ∈ l

/-! ## Key input and timers (45_input_timers, 60_exceptions) -/

/-- SKP and SKNP (R230, R231, R232): the level of the key that V[x] names; a value above 0xF is a fault. -/
def Obligations.SkipOnKey : Prop :=
  ∀ (x : Reg) (s : State),
    decode (wordFXKK 0xE (regNibble x) 0x9E) = .skp x ∧ decode (wordFXKK 0xE (regNibble x) 0xA1) = .sknp x ∧
    (∀ h : (s.reg x).toNat < 16,
      (∃ t, exec (.skp x) s = .next t ∧ t = { s with pc := t.pc } ∧
        t.pc = (if s.key[(s.reg x).toNat] = true then s.pc + 2 else s.pc)) ∧
      ∃ t, exec (.sknp x) s = .next t ∧ t = { s with pc := t.pc } ∧
        t.pc = (if s.key[(s.reg x).toNat] = true then s.pc else s.pc + 2)) ∧
    ∀ (elapsed : Rat) (w : Word), s.fault = none → (s.reg x).toNat > 0xF →
      runInstr elapsed (.skp x) w s =
        .next { s with fault := some { code := .keyIndexOutOfRange, pc := s.pc, word := some w } } ∧
      runInstr elapsed (.sknp x) w s =
        .next { s with fault := some { code := .keyIndexOutOfRange, pc := s.pc, word := some w } }

/-- LD Vx, DT, LD DT, Vx and LD ST, Vx (R233, R235, R236), alone and in a cycle whose tick fires: DT is read before
the tick, a written timer falls by the tick, and ACC goes on from its old value. That the write leaves ACC alone and
that the tick follows it are the spec's own inference (marked derived from R260 in R235 and R236); the tick is the
model's timer form of log entry 14. -/
def Obligations.TimerTransfers : Prop :=
  ∀ (x : Reg) (s : State),
    decode (wordFXKK 0xF (regNibble x) 0x07) = .ldVxDt x ∧ decode (wordFXKK 0xF (regNibble x) 0x15) = .ldDtVx x ∧
    decode (wordFXKK 0xF (regNibble x) 0x18) = .ldStVx x ∧
    (∃ t, exec (.ldVxDt x) s = .next t ∧ t.reg x = s.dt ∧ OnlyRegs s t (· = x)) ∧
    exec (.ldDtVx x) s = .next { s with dt := s.reg x } ∧ exec (.ldStVx x) s = .next { s with st := s.reg x } ∧
    ∀ (elapsed : Rat) (w : Word), s.fault = none → 1 / 60 ≤ s.acc + elapsed →
      (∃ t, runInstr elapsed (.ldVxDt x) w s = .next t ∧ t.reg x = s.dt ∧ t.dt.toNat = s.dt.toNat - 1) ∧
      (∃ t, runInstr elapsed (.ldDtVx x) w s = .next t ∧ t.dt.toNat = (s.reg x).toNat - 1 ∧
        t.st.toNat = s.st.toNat - 1 ∧ t.acc = s.acc + elapsed - 1 / 60) ∧
      ∃ t, runInstr elapsed (.ldStVx x) w s = .next t ∧ t.st.toNat = (s.reg x).toNat - 1 ∧
        t.dt.toNat = s.dt.toNat - 1 ∧ t.acc = s.acc + elapsed - 1 / 60

/-- LD Vx, K (R234): the lowest pressed key, or pc back to this instruction. -/
def Obligations.WaitForKey : Prop :=
  ∀ (x : Reg) (s : State), decode (wordFXKK 0xF (regNibble x) 0x0A) = .ldVxK x ∧
    (∀ k : Key, s.keyDown k = true → (∀ j, j < k → s.keyDown j = false) →
      ∃ t, exec (.ldVxK x) s = .next t ∧ (t.reg x).toNat = k.val ∧ OnlyRegs s t (· = x)) ∧
    ((∀ k, s.keyDown k = false) →
      ∃ t, exec (.ldVxK x) s = .next t ∧ t.pc = s.pc - 2 ∧ t = { s with pc := t.pc })

/-- The timer check (R260): at most one tick; both counters fall by one, floored at 0; the remainder is kept. A
rejected cycle runs none. -/
def Obligations.TimerTick : Prop :=
  ∀ (elapsed : Rat) (s : State),
    (1 / 60 ≤ s.acc + elapsed → (timerCheck elapsed s).dt.toNat = s.dt.toNat - 1 ∧
      (timerCheck elapsed s).st.toNat = s.st.toNat - 1 ∧
      (timerCheck elapsed s).acc = s.acc + elapsed - 1 / 60) ∧
    (s.acc + elapsed < 1 / 60 → (timerCheck elapsed s).dt = s.dt ∧ (timerCheck elapsed s).st = s.st ∧
      (timerCheck elapsed s).acc = s.acc + elapsed) ∧
    (∀ t, cycle elapsed s = .next t → t.fault ≠ none → t.dt = s.dt ∧ t.st = s.st ∧ t.acc = s.acc) ∧
    timerCheck elapsed s = { s with
      dt := (timerCheck elapsed s).dt, st := (timerCheck elapsed s).st, acc := (timerCheck elapsed s).acc }

/-! ## Frames: what each kind of state is written by -/

/-- General registers (R20, R21): an instruction writes its destinations and VF where it sets a flag, nothing
else; `writesReg` names them. -/
def Obligations.RegistersFrame : Prop :=
  ∀ (i : Instr) (s t : State) (r : Reg), exec i s = .next t → writesReg i r = false → t.reg r = s.reg r

/-- I, pc, the stack and SP (R22, R36, R38): written only by the instructions that `writesI`, `writesPc` and
`writesStack` name; a RET leaves every stack entry. -/
def Obligations.IndexPcAndStackFrame : Prop :=
  ∀ (i : Instr) (s t : State), exec i s = .next t →
    (writesI i = false → t.i = s.i) ∧ (writesPc i = false → t.pc = s.pc) ∧
    (writesStack i = false → t.sp = s.sp ∧ t.stack = s.stack) ∧ ∀ a, i = .ret a → t.stack = s.stack

/-- The frame buffer and the DirtySet (R29, R30): only CLS and DRW. -/
def Obligations.DisplayFrame : Prop :=
  ∀ (i : Instr) (s t : State), exec i s = .next t → writesDisplay i = false → t.fb = s.fb ∧ t.dirty = s.dirty

/-- Timers, keys and hidden state (R26, R27, R31, R32): no handler but FX15 writes DT, none but FX18 writes ST, and
none writes ACC, KEY or CUR; only CXKK draws a random byte. -/
def Obligations.TimersKeysAndHiddenFrame : Prop :=
  ∀ (i : Instr) (s t : State), exec i s = .next t →
    ((∀ x, i ≠ .ldDtVx x) → t.dt = s.dt) ∧ ((∀ x, i ≠ .ldStVx x) → t.st = s.st) ∧
    t.acc = s.acc ∧ t.key = s.key ∧ t.cur = s.cur ∧ t.dtDraws = s.dtDraws ∧
    ((∀ x kk, i ≠ .rnd x kk) → t.rndDraws = s.rndDraws)

/-- Memory (R61, R67, R70): every byte outside the bytes an instruction stores to, and every byte of the reserved
low region, reads as before. `storedRange` computes the address as the meanings do. -/
def Obligations.MemoryFrame : Prop :=
  ∀ (i : Instr) (s t : State) (a : Nat), exec i s = .next t → ¬ Stores i s a ∨ a < 0x200 →
    t.mem.read a = s.mem.read a

/-! ## The whole machine -/

/-- The invariant holds after reset (R40). -/
def Obligations.ResetMeetsTheInvariant : Prop := Inv State.reset

/-- Every step keeps the invariant: memory stays canonical, the reserved low region stays as reset left it, and
ACC stays non-negative, whatever the elapsed time (R27, R67). -/
def Obligations.StepKeepsTheInvariant : Prop :=
  ∀ s t : State, Inv s → step s = .next t → Inv t

/-- Every host transaction keeps the invariant (R50 to R58). -/
def Obligations.TransactionsKeepTheInvariant : Prop :=
  ∀ (op : HostOp) (s t : State) (rep : HostReply), Inv s → transact op s = .next (rep, t) → Inv t

/-- A parked program stays parked, and a cycle leaves everything but ACC, DT, ST and CUR as it is (R291). The
counter of elapsed times is the model's own (log entry 1). -/
def Obligations.ParkedStaysParked : Prop :=
  ∀ s : State, Parked s → ∃ t, step s = .next t ∧ Parked t ∧
    t = { s with acc := t.acc, dt := t.dt, st := t.st, cur := t.cur, dtDraws := s.dtDraws + 1 }

/-- No instruction reads DIRTY (R30): with another DirtySet the step does the same and appends the same pixels. -/
def Obligations.DirtySetIsNeverRead : Prop :=
  ∀ (s t : State) (d : List Pixel), step s = .next t →
    ∃ l, t.dirty = s.dirty ++ l ∧ step { s with dirty := d } = .next { t with dirty := d ++ l }

/-- No instruction reads CUR (R32): a completed step does the same whatever CUR held, and a rejected one leaves
CUR as it was. -/
def Obligations.CurrentWordIsNeverRead : Prop :=
  ∀ (s t : State) (c : Word), step s = .next t →
    (t.fault = none → step { s with cur := c } = .next t) ∧
    (t.fault ≠ none → t.cur = s.cur ∧ step { s with cur := c } = .next { t with cur := c })

/-! ## Reset and the host's ports (10_state, 70_reset_and_hazards) -/

/-- Reset (R40, R62, R63): the registers' values, the glyph bytes at FONT_BASE, and 0 in every other byte. That
the tone is off is the spec's own inference (R40 marks it derived from R56 and ST = 0). The two counters of the model
are not the spec's. -/
def Obligations.ResetState : Prop :=
  (∀ r, State.reset.reg r = 0) ∧ State.reset.i = 0 ∧ State.reset.pc = 0x200 ∧ State.reset.sp = 0 ∧
  (∀ j : Fin 16, State.reset.stack[j] = 0) ∧ State.reset.dt = 0 ∧ State.reset.st = 0 ∧ State.reset.acc = 0 ∧
  (∀ p, FrameBuffer.pixel State.reset.fb p = false) ∧ State.reset.dirty = [] ∧
  (∀ k, State.reset.keyDown k = false) ∧ State.reset.cur = 0 ∧ State.reset.fault = none ∧
  toneActive State.reset = false ∧ Config.fontBase + 80 ≤ 0x200 ∧
  (∀ (d k : Nat) (glyph : List Byte) (b : Byte),
    [[0xF0, 0x90, 0x90, 0x90, 0xF0], [0x20, 0x60, 0x20, 0x20, 0x70], [0xF0, 0x10, 0xF0, 0x80, 0xF0],
     [0xF0, 0x10, 0xF0, 0x10, 0xF0], [0x90, 0x90, 0xF0, 0x10, 0x10], [0xF0, 0x80, 0xF0, 0x10, 0xF0],
     [0xF0, 0x80, 0xF0, 0x90, 0xF0], [0xF0, 0x10, 0x20, 0x40, 0x40], [0xF0, 0x90, 0xF0, 0x90, 0xF0],
     [0xF0, 0x90, 0xF0, 0x10, 0xF0], [0xF0, 0x90, 0xF0, 0x90, 0x90], [0xE0, 0x90, 0xE0, 0x90, 0xE0],
     [0xF0, 0x80, 0x80, 0x80, 0xF0], [0xE0, 0x90, 0x90, 0x90, 0xE0], [0xF0, 0x80, 0xF0, 0x80, 0xF0],
     [0xF0, 0x80, 0xF0, 0x80, 0x80]][d]? = some glyph → glyph[k]? = some b →
    State.reset.mem.read (Config.fontBase + 5 * d + k) = b) ∧
  ∀ a, a < Config.fontBase ∨ Config.fontBase + 80 ≤ a → State.reset.mem.read a = 0

/-- The reset port (R50, R280): every field takes its reset value, whatever the state was. The model's two counters
go on (log entry 6). -/
def Obligations.ResetPort : Prop :=
  ∀ s : State, ∃ t, transact .reset s = .next (.done, t) ∧
    t = { State.reset with rndDraws := s.rndDraws, dtDraws := s.dtDraws }

/-- loadProgram (R51): at most 3584 bytes, from 0x200, all or nothing; no other field changes. -/
def Obligations.LoadProgramPort : Prop :=
  ∀ (bytes : List Byte) (s : State),
    (bytes.length ≤ 3584 → ∃ t, transact (.loadProgram bytes) s = .next (.load .accepted, t) ∧
      (∀ k (h : k < bytes.length), t.mem.read (0x200 + k) = bytes[k]) ∧
      (∀ a, a < 0x200 ∨ 0x200 + bytes.length ≤ a → t.mem.read a = s.mem.read a) ∧ t = { s with mem := t.mem }) ∧
    (3584 < bytes.length → transact (.loadProgram bytes) s = .next (.load .rejected, s))

/-- setKey (R53) and drainDirty (R54). -/
def Obligations.KeyAndDrainPorts : Prop :=
  (∀ (k : Nat) (pressed : Bool) (s : State),
    (∀ h : k < 16, ∃ t, transact (.setKey k pressed) s = .next (.done, t) ∧ t.keyDown ⟨k, h⟩ = pressed ∧
      (∀ j : Key, j.val ≠ k → t.keyDown j = s.keyDown j) ∧ t = { s with key := t.key }) ∧
    (16 ≤ k → transact (.setKey k pressed) s = .refused (.noSuchKey k))) ∧
  ∀ s : State, transact .drainDirty s = .next (.pixels s.dirty, { s with dirty := [] })

/-- readPixel, toneActive and snapshot (R55, R56, R57) change nothing and show what they name. -/
def Obligations.ReadingPorts : Prop :=
  (∀ (x y : Nat) (s : State),
    (∀ (hx : x < 64) (hy : y < 32), transact (.readPixel x y) s = .next (.bit (s.fb[x][y]), s)) ∧
    (64 ≤ x ∨ 32 ≤ y → transact (.readPixel x y) s = .refused (.noSuchPixel x y))) ∧
  (∀ s : State, ∃ b, transact .toneActive s = .next (.bit b, s) ∧ (b = true ↔ s.st.toNat > 0)) ∧
  ∀ s : State, ∃ r, transact .snapshot s = .next (.record r, s) ∧ r.cur = s.cur ∧ r.v = s.v ∧
    r.stack = s.stack ∧ r.sp = s.sp ∧ r.key = s.key ∧ r.pc = s.pc ∧ r.i = s.i ∧ r.dt = s.dt ∧ r.st = s.st ∧
    r.fault = s.fault

/-- Tone edges (R262): only FX18 with a positive value makes an on edge; an off edge is a tick, an FX18 with 0, or a
reset. -/
def Obligations.ToneEdgeCauses : Prop :=
  ∀ (op : HostOp) (rep : HostReply) (s t : State), transact op s = .next (rep, t) →
    (toneEdge s t = some .on → ∃ e w x, op = .cycle e ∧ fetchWord s = some w ∧ decode w = .ldStVx x ∧
      (s.reg x).toNat > 0) ∧
    (toneEdge s t = some .off → op = .reset ∨ ∃ e, op = .cycle e ∧
      (tickFires e s = true ∨ ∃ w x, fetchWord s = some w ∧ decode w = .ldStVx x ∧ s.reg x = 0))

/-- Boot (R283): reset then an accepted load leaves what a program may rely on, with its bytes at 0x200. -/
def Obligations.BootLeavesAReadyMachine : Prop :=
  ∀ (bytes : List Byte) (s : State), bytes.length ≤ 3584 → ∃ t, boot bytes s = some t ∧
    (∀ r, t.reg r = 0) ∧ t.i = 0 ∧ t.sp = 0 ∧ t.dt = 0 ∧ t.st = 0 ∧ t.pc = 0x200 ∧ t.fault = none ∧
    (∀ p, FrameBuffer.pixel t.fb p = false) ∧
    (∀ k (h : k < bytes.length), t.mem.read (0x200 + k) = bytes[k]) ∧
    ∀ k, k < 80 → Config.fontGlyphs[k]? = some (t.mem.read (Config.fontBase + k))
end

