-- ==== Sys2Proof/Laws/Decode.lean ====
section
/-! SUPPORT. The fields of a word built from its fields, a word rebuilt from its fields, and the byte order
(30_encoding R91, R92; 20_memory R64). -/

namespace Sys2Proof

@[simp] theorem nibbleReg_regNibble (r : Reg) : nibbleReg (regNibble r) = r := rfl
@[simp] theorem regNibble_nibbleReg (b : Nibble) : regNibble (nibbleReg b) = b := rfl

/-! ## Fields of a word of four nibbles -/

@[simp] theorem fieldF_wordFXYN (f x y n : Nibble) : fieldF (wordFXYN f x y n) = f := by
  apply BitVec.eq_of_getLsbD_eq
  intro i hi
  simp only [fieldF, wordFXYN, BitVec.getLsbD_extractLsb']
  erw [BitVec.getLsbD_append, BitVec.getLsbD_append, BitVec.getLsbD_append]
  interval_cases i <;> simp

@[simp] theorem fieldX_wordFXYN (f x y n : Nibble) : fieldX (wordFXYN f x y n) = x := by
  apply BitVec.eq_of_getLsbD_eq
  intro i hi
  simp only [fieldX, wordFXYN, BitVec.getLsbD_extractLsb']
  erw [BitVec.getLsbD_append, BitVec.getLsbD_append, BitVec.getLsbD_append]
  interval_cases i <;> simp

@[simp] theorem fieldY_wordFXYN (f x y n : Nibble) : fieldY (wordFXYN f x y n) = y := by
  apply BitVec.eq_of_getLsbD_eq
  intro i hi
  simp only [fieldY, wordFXYN, BitVec.getLsbD_extractLsb']
  erw [BitVec.getLsbD_append, BitVec.getLsbD_append, BitVec.getLsbD_append]
  interval_cases i <;> simp

@[simp] theorem fieldN_wordFXYN (f x y n : Nibble) : fieldN (wordFXYN f x y n) = n := by
  apply BitVec.eq_of_getLsbD_eq
  intro i hi
  simp only [fieldN, wordFXYN, BitVec.getLsbD_extractLsb']
  erw [BitVec.getLsbD_append, BitVec.getLsbD_append, BitVec.getLsbD_append]
  interval_cases i <;> simp

/-! ## Fields of a word of a family, a nibble and a low byte -/

@[simp] theorem fieldF_wordFXKK (f x : Nibble) (kk : Byte) : fieldF (wordFXKK f x kk) = f := by
  apply BitVec.eq_of_getLsbD_eq
  intro i hi
  simp only [fieldF, wordFXKK, BitVec.getLsbD_extractLsb']
  erw [BitVec.getLsbD_append, BitVec.getLsbD_append]
  interval_cases i <;> simp

@[simp] theorem fieldX_wordFXKK (f x : Nibble) (kk : Byte) : fieldX (wordFXKK f x kk) = x := by
  apply BitVec.eq_of_getLsbD_eq
  intro i hi
  simp only [fieldX, wordFXKK, BitVec.getLsbD_extractLsb']
  erw [BitVec.getLsbD_append, BitVec.getLsbD_append]
  interval_cases i <;> simp

@[simp] theorem fieldKK_wordFXKK (f x : Nibble) (kk : Byte) : fieldKK (wordFXKK f x kk) = kk := by
  apply BitVec.eq_of_getLsbD_eq
  intro i hi
  simp only [fieldKK, wordFXKK, BitVec.getLsbD_extractLsb']
  erw [BitVec.getLsbD_append, BitVec.getLsbD_append]
  interval_cases i <;> simp

/-! ## Fields of a word of a family and twelve low bits -/

@[simp] theorem fieldF_wordFNNN (f : Nibble) (nnn : Addr12) : fieldF (wordFNNN f nnn) = f := by
  apply BitVec.eq_of_getLsbD_eq
  intro i hi
  simp only [fieldF, wordFNNN, BitVec.getLsbD_extractLsb']
  erw [BitVec.getLsbD_append]
  interval_cases i <;> simp

@[simp] theorem fieldNNN_wordFNNN (f : Nibble) (nnn : Addr12) : fieldNNN (wordFNNN f nnn) = nnn := by
  apply BitVec.eq_of_getLsbD_eq
  intro i hi
  simp only [fieldNNN, wordFNNN, BitVec.getLsbD_extractLsb']
  erw [BitVec.getLsbD_append]
  interval_cases i <;> simp

@[simp] theorem fieldKK_wordFNNN (f : Nibble) (nnn : Addr12) : fieldKK (wordFNNN f nnn) = nnn.extractLsb' 0 8 := by
  apply BitVec.eq_of_getLsbD_eq
  intro i hi
  simp only [fieldKK, wordFNNN, BitVec.getLsbD_extractLsb']
  erw [BitVec.getLsbD_append]
  interval_cases i <;> simp

/-! ## A word is its fields -/

@[simp] theorem wordFXYN_fields (w : Word) : wordFXYN (fieldF w) (fieldX w) (fieldY w) (fieldN w) = w := by
  apply BitVec.eq_of_getLsbD_eq
  intro i hi
  simp only [fieldF, fieldX, fieldY, fieldN, wordFXYN]
  erw [BitVec.getLsbD_append, BitVec.getLsbD_append, BitVec.getLsbD_append]
  interval_cases i <;> simp

@[simp] theorem wordFXKK_fields (w : Word) : wordFXKK (fieldF w) (fieldX w) (fieldKK w) = w := by
  apply BitVec.eq_of_getLsbD_eq
  intro i hi
  simp only [fieldF, fieldX, fieldKK, wordFXKK]
  erw [BitVec.getLsbD_append, BitVec.getLsbD_append]
  interval_cases i <;> simp

@[simp] theorem wordFNNN_fields (w : Word) : wordFNNN (fieldF w) (fieldNNN w) = w := by
  apply BitVec.eq_of_getLsbD_eq
  intro i hi
  simp only [fieldF, fieldNNN, wordFNNN]
  erw [BitVec.getLsbD_append]
  interval_cases i <;> simp

/-- The low byte of the twelve low bits is the word's low byte. -/
@[simp] theorem extractLsb_fieldNNN (w : Word) : (fieldNNN w).extractLsb' 0 8 = fieldKK w := by
  apply BitVec.eq_of_getLsbD_eq
  intro i hi
  simp only [fieldNNN, fieldKK, BitVec.getLsbD_extractLsb']
  interval_cases i <;> simp

/-! ## A word under the masks of the opcode table (R102) -/

theorem and_F000 (w : Word) : w &&& 0xF000#16 = wordFNNN (fieldF w) 0 := by
  apply BitVec.eq_of_getLsbD_eq
  intro i hi
  simp only [fieldF, wordFNNN]
  erw [BitVec.getLsbD_append]
  interval_cases i <;> simp

theorem and_F0FF (w : Word) : w &&& 0xF0FF#16 = wordFXKK (fieldF w) 0 (fieldKK w) := by
  apply BitVec.eq_of_getLsbD_eq
  intro i hi
  simp only [fieldF, fieldKK, wordFXKK]
  erw [BitVec.getLsbD_append, BitVec.getLsbD_append]
  interval_cases i <;> simp

theorem and_F00F (w : Word) : w &&& 0xF00F#16 = wordFXYN (fieldF w) 0 0 (fieldN w) := by
  apply BitVec.eq_of_getLsbD_eq
  intro i hi
  simp only [fieldF, fieldN, wordFXYN]
  erw [BitVec.getLsbD_append, BitVec.getLsbD_append, BitVec.getLsbD_append]
  interval_cases i <;> simp

/-! ## Byte order (R64) -/

@[simp] theorem wordOfBytes_bytes (w : Word) : wordOfBytes (highByte w) (lowByte w) = w := by
  apply BitVec.eq_of_getLsbD_eq
  intro i hi
  simp only [wordOfBytes, highByte, lowByte]
  erw [BitVec.getLsbD_append]
  interval_cases i <;> simp

@[simp] theorem highByte_wordOfBytes (a b : Byte) : highByte (wordOfBytes a b) = a := by
  apply BitVec.eq_of_getLsbD_eq
  intro i hi
  simp only [wordOfBytes, highByte, BitVec.getLsbD_extractLsb']
  erw [BitVec.getLsbD_append]
  interval_cases i <;> simp

@[simp] theorem lowByte_wordOfBytes (a b : Byte) : lowByte (wordOfBytes a b) = b := by
  apply BitVec.eq_of_getLsbD_eq
  intro i hi
  simp only [wordOfBytes, lowByte, BitVec.getLsbD_extractLsb']
  erw [BitVec.getLsbD_append]
  interval_cases i <;> simp

theorem decodeBytes_bytesOfWord (w : Word) (rest : List Byte) :
    decodeBytes (bytesOfWord w ++ rest) = .ok (decode w, rest) := by
  simp [bytesOfWord, decodeBytes]

/-- The no-op words, through the fields of the word (R101). -/
theorem isUnmatchedWord_iff (w : Word) : isUnmatchedWord w = true ↔
    (fieldF w = 0x8#4 ∧ fieldN w ∉ [0x0#4, 0x1#4, 0x2#4, 0x3#4, 0x4#4, 0x5#4, 0x6#4, 0x7#4, 0xE#4]) ∨
    (fieldF w = 0xE#4 ∧ fieldKK w ∉ [0x9E#8, 0xA1#8]) ∨
    (fieldF w = 0xF#4 ∧
      fieldKK w ∉ [0x07#8, 0x0A#8, 0x15#8, 0x18#8, 0x1E#8, 0x29#8, 0x33#8, 0x55#8, 0x65#8]) := by
  simp only [isUnmatchedWord, fieldF, fieldN, fieldKK, Bool.or_eq_true, Bool.and_eq_true, beq_iff_eq,
    Bool.not_eq_true', List.contains_eq_mem, decide_eq_false_iff_not, or_assoc]

/-- A word of the family with number `f` decodes as `decode`'s arm for `f`: the family is the first match. -/
theorem decode_of_family {w : Word} {f : Nibble} (h : fieldF w = f) :
    decode w = match f.toNat with
      | 0x0 => decodeFamily0 w
      | 0x1 => .jp (fieldNNN w)
      | 0x2 => .call (fieldNNN w)
      | 0x3 => .seImm (regX w) (fieldKK w)
      | 0x4 => .sneImm (regX w) (fieldKK w)
      | 0x5 => .seReg (regX w) (regY w) (fieldN w)
      | 0x6 => .ldImm (regX w) (fieldKK w)
      | 0x7 => .addImm (regX w) (fieldKK w)
      | 0x8 => decodeFamily8 w
      | 0x9 => .sneReg (regX w) (regY w) (fieldN w)
      | 0xA => .ldI (fieldNNN w)
      | 0xB => .jpV0 (fieldNNN w)
      | 0xC => .rnd (regX w) (fieldKK w)
      | 0xD => .drw (regX w) (regY w) (fieldN w)
      | 0xE => decodeFamilyE w
      | _ => decodeFamilyF w := by
  subst h; rfl

end Sys2Proof
end

