-- ==== Sys2Proof/Laws/Display.lean ====
section
/-! SUPPORT. What the frame-buffer operations do (44_display): a pixel read after a pixel written, what plotting a
list of pixels makes of the screen, the DirtySet and the collision flag, and that a sprite and a clear visit no
pixel twice. -/

namespace Sys2Proof.Machine

/-! ## Pixels -/

theorem FrameBuffer.pixel_setPixel (fb : FrameBuffer) (p q : Pixel) (b : Bool) :
    FrameBuffer.pixel (FrameBuffer.setPixel fb p b) q = if q = p then b else FrameBuffer.pixel fb q := by
  obtain ⟨px, py⟩ := p
  obtain ⟨qx, qy⟩ := q
  unfold FrameBuffer.pixel FrameBuffer.setPixel
  by_cases hx : px = qx
  · subst hx
    by_cases hy : py = qy
    · subst hy; simp
    · have : py.val ≠ qy.val := fun e => hy (Fin.ext e)
      simp [this, Ne.symm hy]
  · have : px.val ≠ qx.val := fun e => hx (Fin.ext e)
    simp [this, Ne.symm hx]

@[simp] theorem FrameBuffer.pixel_blank (p : Pixel) : FrameBuffer.pixel blankFrame p = false := by
  simp [FrameBuffer.pixel, blankFrame]

/-- Two frame buffers with the same pixels are the same. -/
theorem FrameBuffer.ext_pixel {a b : FrameBuffer} (h : ∀ p, FrameBuffer.pixel a p = FrameBuffer.pixel b p) :
    a = b := by
  apply Vector.ext
  intro x hx
  apply Vector.ext
  intro y hy
  exact h (⟨x, hx⟩, ⟨y, hy⟩)

/-! ## Plotting -/

@[simp] theorem Canvas.plotAll_nil (c : Canvas) : c.plotAll [] = c := rfl
@[simp] theorem Canvas.plotAll_cons (c : Canvas) (p : Pixel) (ps : List Pixel) :
    c.plotAll (p :: ps) = (c.plot p).plotAll ps := rfl

/-- Plotting appends exactly the pixels plotted, in order. -/
theorem Canvas.plotAll_dirty (ps : List Pixel) : ∀ c : Canvas, (c.plotAll ps).dirty = c.dirty ++ ps := by
  induction ps with
  | nil => simp
  | cons p ps ih => intro c; simp [ih, Canvas.plot]

/-- A pixel ends inverted as often as it was plotted. -/
theorem Canvas.plotAll_pixel_count (ps : List Pixel) : ∀ (c : Canvas) (q : Pixel),
    FrameBuffer.pixel (c.plotAll ps).fb q = (FrameBuffer.pixel c.fb q ^^ decide (ps.count q % 2 = 1)) := by
  induction ps with
  | nil => simp
  | cons p ps ih =>
    intro c q
    rw [Canvas.plotAll_cons, ih]
    simp only [Canvas.plot, FrameBuffer.pixel_setPixel, List.count_cons]
    by_cases h : q = p
    · subst h
      rcases Nat.mod_two_eq_zero_or_one (ps.count q) with e | e <;> simp [e, Nat.add_mod]
    · simp [h, Ne.symm h]

/-- With no pixel twice in the list, a pixel ends inverted exactly if it is in the list. -/
theorem Canvas.plotAll_pixel {ps : List Pixel} (hn : ps.Nodup) (c : Canvas) (q : Pixel) :
    FrameBuffer.pixel (c.plotAll ps).fb q = (FrameBuffer.pixel c.fb q ^^ decide (q ∈ ps)) := by
  rw [Canvas.plotAll_pixel_count]
  by_cases h : q ∈ ps
  · simp [h, List.count_eq_one_of_mem hn h]
  · simp [h, List.count_eq_zero_of_not_mem h]

/-- With no pixel twice in the list, the collision flag is raised exactly if a plotted pixel was on. -/
theorem Canvas.plotAll_hit {ps : List Pixel} : ∀ (_ : ps.Nodup) (c : Canvas),
    (c.plotAll ps).hit = (c.hit || ps.any (fun p => FrameBuffer.pixel c.fb p)) := by
  induction ps with
  | nil => simp
  | cons p ps ih =>
    intro hn c
    obtain ⟨hp, hn⟩ := List.nodup_cons.mp hn
    rw [Canvas.plotAll_cons, ih hn]
    have : ps.any (fun q => FrameBuffer.pixel (c.plot p).fb q) =
        ps.any (fun q => FrameBuffer.pixel c.fb q) := by
      apply Bool.eq_iff_iff.mpr
      simp only [List.any_eq_true]
      refine exists_congr fun q => and_congr_right fun hq => ?_
      have : q ≠ p := fun e => hp (e ▸ hq)
      simp [Canvas.plot, FrameBuffer.pixel_setPixel, this]
    rw [this]
    simp [Canvas.plot, Bool.or_assoc]

/-! ## A sprite's pixels -/

theorem mem_rowPixels {bx ry : Byte} {r : Nat} {row : Byte} {p : Pixel} :
    p ∈ rowPixels bx ry r row ↔ ∃ col, col < 8 ∧ row.getLsbD (7 - col) = true ∧ spritePixel bx ry r col = p := by
  simp [rowPixels, and_assoc]

theorem mem_spritePixels {bx ry : Byte} {p : Pixel} (rows : List Byte) : ∀ r,
    p ∈ spritePixels bx ry r rows ↔ ∃ k, ∃ h : k < rows.length, p ∈ rowPixels bx ry (r + k) rows[k] := by
  induction rows with
  | nil => simp [spritePixels]
  | cons row rows ih =>
    intro r
    simp only [spritePixels, List.mem_append, ih, List.length_cons]
    constructor
    · rintro (h | ⟨k, hk, h⟩)
      · exact ⟨0, by omega, by simpa using h⟩
      · exact ⟨k + 1, by omega, by rw [show r + (k + 1) = r + 1 + k by omega]; simpa using h⟩
    · rintro ⟨k, hk, h⟩
      cases k with
      | zero => left; simpa using h
      | succ k =>
        right
        exact ⟨k, by omega, by rw [show r + 1 + k = r + (k + 1) by omega]; simpa using h⟩

theorem nodup_rowPixels (bx ry : Byte) (r : Nat) (row : Byte) : (rowPixels bx ry r row).Nodup := by
  unfold rowPixels
  apply List.Nodup.map_on
  · intro a ha b hb h
    simp only [List.mem_filter, List.mem_range] at ha hb
    have := congrArg (fun p : Pixel => p.1.val) h
    simp only [spritePixel, Fin.ofNat] at this
    omega
  · exact List.Nodup.filter _ List.nodup_range

/-- A sprite of at most 32 rows visits no pixel twice (R212). -/
theorem nodup_spritePixels (bx ry : Byte) (rows : List Byte) : ∀ r, rows.length ≤ 32 →
    (spritePixels bx ry r rows).Nodup := by
  induction rows with
  | nil => simp [spritePixels]
  | cons row rows ih =>
    intro r hr
    simp only [List.length_cons] at hr
    rw [spritePixels, List.nodup_append]
    refine ⟨nodup_rowPixels .., ih _ (by omega), fun p hp q hq e => ?_⟩
    subst e
    obtain ⟨col, _, _, h1⟩ := mem_rowPixels.mp hp
    obtain ⟨k, hk, hq⟩ := (mem_spritePixels _ _).mp hq
    obtain ⟨col', _, _, h2⟩ := mem_rowPixels.mp hq
    have := congrArg (fun p : Pixel => p.2.val) (h1.trans h2.symm)
    simp only [spritePixel, Fin.ofNat] at this
    omega

/-! ## The lit pixels -/

theorem mem_litPixels {fb : FrameBuffer} {p : Pixel} : p ∈ litPixels fb ↔ FrameBuffer.pixel fb p = true := by
  obtain ⟨x, y⟩ := p
  simp [litPixels]

/-- A clear records no pixel twice (R211). -/
theorem nodup_litPixels (fb : FrameBuffer) : (litPixels fb).Nodup := by
  unfold litPixels
  rw [List.nodup_flatMap]
  refine ⟨fun y _ => ?_, ?_⟩
  · refine List.Nodup.filterMap ?_ (List.nodup_finRange 64)
    intro a b p ha hb
    simp only [Option.mem_def, Option.ite_none_right_eq_some, Option.some.injEq] at ha hb
    have := ha.2.trans hb.2.symm
    exact congrArg Prod.fst this
  · refine (List.nodup_finRange 32).imp ?_
    intro y z hyz
    simp only [Function.onFun, List.disjoint_left]
    intro p hp hq
    simp only [List.mem_filterMap, List.mem_finRange, true_and, Option.ite_none_right_eq_some,
      Option.some.injEq] at hp hq
    obtain ⟨_, _, h1⟩ := hp
    obtain ⟨_, _, h2⟩ := hq
    exact hyz (congrArg Prod.snd (h1.trans h2.symm))

end Sys2Proof.Machine
end

