-- ==== Sys2Proof/Laws/State.lean ====
section
/-! SUPPORT. One lemma for each field under each named update of the state, true by rfl, so that no later proof
unfolds a record update. Lemmas about reading registers, pixels and keys back come first. -/

namespace Sys2Proof.Machine

theorem State.reg_setReg (s : State) (r q : Reg) (b : Byte) :
    (s.setReg r b).reg q = if q = r then b else s.reg q := by
  unfold State.reg State.setReg
  by_cases h : q = r
  · subst h; simp
  · have : r.val ≠ q.val := fun e => h (Fin.ext e.symm)
    simp [h, this]

@[simp] theorem State.reg_setReg_same (s : State) (r : Reg) (b : Byte) : (s.setReg r b).reg r = b := by
  simp [State.reg_setReg]

theorem State.reg_setReg_ne (s : State) {r q : Reg} (b : Byte) (h : q ≠ r) :
    (s.setReg r b).reg q = s.reg q := by
  simp [State.reg_setReg, h]

/-- Two states whose register files agree read every register alike. -/
theorem State.reg_congr {s t : State} (h : s.v = t.v) (r : Reg) : s.reg r = t.reg r := by
  unfold State.reg; rw [h]

/-! ## setReg -/

@[simp] theorem State.setReg_v (s : State) (r : Reg) (b : Byte) : (s.setReg r b).v = s.v.set r b := rfl
@[simp] theorem State.setReg_i (s : State) (r : Reg) (b : Byte) : (s.setReg r b).i = s.i := rfl
@[simp] theorem State.setReg_pc (s : State) (r : Reg) (b : Byte) : (s.setReg r b).pc = s.pc := rfl
@[simp] theorem State.setReg_sp (s : State) (r : Reg) (b : Byte) : (s.setReg r b).sp = s.sp := rfl
@[simp] theorem State.setReg_stack (s : State) (r : Reg) (b : Byte) : (s.setReg r b).stack = s.stack := rfl
@[simp] theorem State.setReg_dt (s : State) (r : Reg) (b : Byte) : (s.setReg r b).dt = s.dt := rfl
@[simp] theorem State.setReg_st (s : State) (r : Reg) (b : Byte) : (s.setReg r b).st = s.st := rfl
@[simp] theorem State.setReg_acc (s : State) (r : Reg) (b : Byte) : (s.setReg r b).acc = s.acc := rfl
@[simp] theorem State.setReg_mem (s : State) (r : Reg) (b : Byte) : (s.setReg r b).mem = s.mem := rfl
@[simp] theorem State.setReg_fb (s : State) (r : Reg) (b : Byte) : (s.setReg r b).fb = s.fb := rfl
@[simp] theorem State.setReg_dirty (s : State) (r : Reg) (b : Byte) : (s.setReg r b).dirty = s.dirty := rfl
@[simp] theorem State.setReg_key (s : State) (r : Reg) (b : Byte) : (s.setReg r b).key = s.key := rfl
@[simp] theorem State.setReg_cur (s : State) (r : Reg) (b : Byte) : (s.setReg r b).cur = s.cur := rfl
@[simp] theorem State.setReg_fault (s : State) (r : Reg) (b : Byte) : (s.setReg r b).fault = s.fault := rfl
@[simp] theorem State.setReg_rndDraws (s : State) (r : Reg) (b : Byte) :
    (s.setReg r b).rndDraws = s.rndDraws := rfl
@[simp] theorem State.setReg_dtDraws (s : State) (r : Reg) (b : Byte) :
    (s.setReg r b).dtDraws = s.dtDraws := rfl

/-! ## recordFault -/

@[simp] theorem State.recordFault_v (s : State) (c : FaultCode) (p : Word) (w : Option Word) :
    (s.recordFault c p w).v = s.v := rfl
@[simp] theorem State.recordFault_i (s : State) (c : FaultCode) (p : Word) (w : Option Word) :
    (s.recordFault c p w).i = s.i := rfl
@[simp] theorem State.recordFault_pc (s : State) (c : FaultCode) (p : Word) (w : Option Word) :
    (s.recordFault c p w).pc = s.pc := rfl
@[simp] theorem State.recordFault_sp (s : State) (c : FaultCode) (p : Word) (w : Option Word) :
    (s.recordFault c p w).sp = s.sp := rfl
@[simp] theorem State.recordFault_stack (s : State) (c : FaultCode) (p : Word) (w : Option Word) :
    (s.recordFault c p w).stack = s.stack := rfl
@[simp] theorem State.recordFault_dt (s : State) (c : FaultCode) (p : Word) (w : Option Word) :
    (s.recordFault c p w).dt = s.dt := rfl
@[simp] theorem State.recordFault_st (s : State) (c : FaultCode) (p : Word) (w : Option Word) :
    (s.recordFault c p w).st = s.st := rfl
@[simp] theorem State.recordFault_acc (s : State) (c : FaultCode) (p : Word) (w : Option Word) :
    (s.recordFault c p w).acc = s.acc := rfl
@[simp] theorem State.recordFault_mem (s : State) (c : FaultCode) (p : Word) (w : Option Word) :
    (s.recordFault c p w).mem = s.mem := rfl
@[simp] theorem State.recordFault_fb (s : State) (c : FaultCode) (p : Word) (w : Option Word) :
    (s.recordFault c p w).fb = s.fb := rfl
@[simp] theorem State.recordFault_dirty (s : State) (c : FaultCode) (p : Word) (w : Option Word) :
    (s.recordFault c p w).dirty = s.dirty := rfl
@[simp] theorem State.recordFault_key (s : State) (c : FaultCode) (p : Word) (w : Option Word) :
    (s.recordFault c p w).key = s.key := rfl
@[simp] theorem State.recordFault_cur (s : State) (c : FaultCode) (p : Word) (w : Option Word) :
    (s.recordFault c p w).cur = s.cur := rfl
@[simp] theorem State.recordFault_fault (s : State) (c : FaultCode) (p : Word) (w : Option Word) :
    (s.recordFault c p w).fault = some { code := c, pc := p, word := w } := rfl
@[simp] theorem State.recordFault_rndDraws (s : State) (c : FaultCode) (p : Word) (w : Option Word) :
    (s.recordFault c p w).rndDraws = s.rndDraws := rfl
@[simp] theorem State.recordFault_dtDraws (s : State) (c : FaultCode) (p : Word) (w : Option Word) :
    (s.recordFault c p w).dtDraws = s.dtDraws := rfl

/-! ## advance -/

@[simp] theorem State.advance_v (s : State) (w : Word) : (s.advance w).v = s.v := rfl
@[simp] theorem State.advance_i (s : State) (w : Word) : (s.advance w).i = s.i := rfl
@[simp] theorem State.advance_pc (s : State) (w : Word) : (s.advance w).pc = s.pc + 2 := rfl
@[simp] theorem State.advance_sp (s : State) (w : Word) : (s.advance w).sp = s.sp := rfl
@[simp] theorem State.advance_stack (s : State) (w : Word) : (s.advance w).stack = s.stack := rfl
@[simp] theorem State.advance_dt (s : State) (w : Word) : (s.advance w).dt = s.dt := rfl
@[simp] theorem State.advance_st (s : State) (w : Word) : (s.advance w).st = s.st := rfl
@[simp] theorem State.advance_acc (s : State) (w : Word) : (s.advance w).acc = s.acc := rfl
@[simp] theorem State.advance_mem (s : State) (w : Word) : (s.advance w).mem = s.mem := rfl
@[simp] theorem State.advance_fb (s : State) (w : Word) : (s.advance w).fb = s.fb := rfl
@[simp] theorem State.advance_dirty (s : State) (w : Word) : (s.advance w).dirty = s.dirty := rfl
@[simp] theorem State.advance_key (s : State) (w : Word) : (s.advance w).key = s.key := rfl
@[simp] theorem State.advance_cur (s : State) (w : Word) : (s.advance w).cur = w := rfl
@[simp] theorem State.advance_fault (s : State) (w : Word) : (s.advance w).fault = s.fault := rfl
@[simp] theorem State.advance_rndDraws (s : State) (w : Word) : (s.advance w).rndDraws = s.rndDraws := rfl
@[simp] theorem State.advance_dtDraws (s : State) (w : Word) : (s.advance w).dtDraws = s.dtDraws := rfl

/-! ## skip -/

@[simp] theorem State.skip_v (s : State) : (s.skip).v = s.v := rfl
@[simp] theorem State.skip_i (s : State) : (s.skip).i = s.i := rfl
@[simp] theorem State.skip_pc (s : State) : (s.skip).pc = s.pc + 2 := rfl
@[simp] theorem State.skip_sp (s : State) : (s.skip).sp = s.sp := rfl
@[simp] theorem State.skip_stack (s : State) : (s.skip).stack = s.stack := rfl
@[simp] theorem State.skip_dt (s : State) : (s.skip).dt = s.dt := rfl
@[simp] theorem State.skip_st (s : State) : (s.skip).st = s.st := rfl
@[simp] theorem State.skip_acc (s : State) : (s.skip).acc = s.acc := rfl
@[simp] theorem State.skip_mem (s : State) : (s.skip).mem = s.mem := rfl
@[simp] theorem State.skip_fb (s : State) : (s.skip).fb = s.fb := rfl
@[simp] theorem State.skip_dirty (s : State) : (s.skip).dirty = s.dirty := rfl
@[simp] theorem State.skip_key (s : State) : (s.skip).key = s.key := rfl
@[simp] theorem State.skip_cur (s : State) : (s.skip).cur = s.cur := rfl
@[simp] theorem State.skip_fault (s : State) : (s.skip).fault = s.fault := rfl
@[simp] theorem State.skip_rndDraws (s : State) : (s.skip).rndDraws = s.rndDraws := rfl
@[simp] theorem State.skip_dtDraws (s : State) : (s.skip).dtDraws = s.dtDraws := rfl

/-! ## skipIf -/

@[simp] theorem State.skipIf_v (s : State) (c : Bool) : (s.skipIf c).v = s.v := rfl
@[simp] theorem State.skipIf_i (s : State) (c : Bool) : (s.skipIf c).i = s.i := rfl
@[simp] theorem State.skipIf_pc (s : State) (c : Bool) : (s.skipIf c).pc = if c then s.pc + 2 else s.pc := rfl
@[simp] theorem State.skipIf_sp (s : State) (c : Bool) : (s.skipIf c).sp = s.sp := rfl
@[simp] theorem State.skipIf_stack (s : State) (c : Bool) : (s.skipIf c).stack = s.stack := rfl
@[simp] theorem State.skipIf_dt (s : State) (c : Bool) : (s.skipIf c).dt = s.dt := rfl
@[simp] theorem State.skipIf_st (s : State) (c : Bool) : (s.skipIf c).st = s.st := rfl
@[simp] theorem State.skipIf_acc (s : State) (c : Bool) : (s.skipIf c).acc = s.acc := rfl
@[simp] theorem State.skipIf_mem (s : State) (c : Bool) : (s.skipIf c).mem = s.mem := rfl
@[simp] theorem State.skipIf_fb (s : State) (c : Bool) : (s.skipIf c).fb = s.fb := rfl
@[simp] theorem State.skipIf_dirty (s : State) (c : Bool) : (s.skipIf c).dirty = s.dirty := rfl
@[simp] theorem State.skipIf_key (s : State) (c : Bool) : (s.skipIf c).key = s.key := rfl
@[simp] theorem State.skipIf_cur (s : State) (c : Bool) : (s.skipIf c).cur = s.cur := rfl
@[simp] theorem State.skipIf_fault (s : State) (c : Bool) : (s.skipIf c).fault = s.fault := rfl
@[simp] theorem State.skipIf_rndDraws (s : State) (c : Bool) : (s.skipIf c).rndDraws = s.rndDraws := rfl
@[simp] theorem State.skipIf_dtDraws (s : State) (c : Bool) : (s.skipIf c).dtDraws = s.dtDraws := rfl

/-! ## timerCheck -/

@[simp] theorem State.timerCheck_v (s : State) (e : Rat) : (timerCheck e s).v = s.v := rfl
@[simp] theorem State.timerCheck_i (s : State) (e : Rat) : (timerCheck e s).i = s.i := rfl
@[simp] theorem State.timerCheck_pc (s : State) (e : Rat) : (timerCheck e s).pc = s.pc := rfl
@[simp] theorem State.timerCheck_sp (s : State) (e : Rat) : (timerCheck e s).sp = s.sp := rfl
@[simp] theorem State.timerCheck_stack (s : State) (e : Rat) : (timerCheck e s).stack = s.stack := rfl
@[simp] theorem State.timerCheck_dt (s : State) (e : Rat) :
    (timerCheck e s).dt = if tickFires e s then tickDown s.dt else s.dt := rfl
@[simp] theorem State.timerCheck_st (s : State) (e : Rat) :
    (timerCheck e s).st = if tickFires e s then tickDown s.st else s.st := rfl
@[simp] theorem State.timerCheck_acc (s : State) (e : Rat) :
    (timerCheck e s).acc = if tickFires e s then s.acc + e - Config.tickPeriod else s.acc + e := rfl
@[simp] theorem State.timerCheck_mem (s : State) (e : Rat) : (timerCheck e s).mem = s.mem := rfl
@[simp] theorem State.timerCheck_fb (s : State) (e : Rat) : (timerCheck e s).fb = s.fb := rfl
@[simp] theorem State.timerCheck_dirty (s : State) (e : Rat) : (timerCheck e s).dirty = s.dirty := rfl
@[simp] theorem State.timerCheck_key (s : State) (e : Rat) : (timerCheck e s).key = s.key := rfl
@[simp] theorem State.timerCheck_cur (s : State) (e : Rat) : (timerCheck e s).cur = s.cur := rfl
@[simp] theorem State.timerCheck_fault (s : State) (e : Rat) : (timerCheck e s).fault = s.fault := rfl
@[simp] theorem State.timerCheck_rndDraws (s : State) (e : Rat) :
    (timerCheck e s).rndDraws = s.rndDraws := rfl
@[simp] theorem State.timerCheck_dtDraws (s : State) (e : Rat) : (timerCheck e s).dtDraws = s.dtDraws := rfl

/-! ## completeCycle -/

@[simp] theorem State.completeCycle_v (s : State) (e : Rat) : (completeCycle e s).v = s.v := rfl
@[simp] theorem State.completeCycle_i (s : State) (e : Rat) : (completeCycle e s).i = s.i := rfl
@[simp] theorem State.completeCycle_pc (s : State) (e : Rat) : (completeCycle e s).pc = s.pc := rfl
@[simp] theorem State.completeCycle_sp (s : State) (e : Rat) : (completeCycle e s).sp = s.sp := rfl
@[simp] theorem State.completeCycle_stack (s : State) (e : Rat) : (completeCycle e s).stack = s.stack := rfl
@[simp] theorem State.completeCycle_dt (s : State) (e : Rat) :
    (completeCycle e s).dt = if tickFires e s then tickDown s.dt else s.dt := rfl
@[simp] theorem State.completeCycle_st (s : State) (e : Rat) :
    (completeCycle e s).st = if tickFires e s then tickDown s.st else s.st := rfl
@[simp] theorem State.completeCycle_acc (s : State) (e : Rat) :
    (completeCycle e s).acc = if tickFires e s then s.acc + e - Config.tickPeriod else s.acc + e := rfl
@[simp] theorem State.completeCycle_mem (s : State) (e : Rat) : (completeCycle e s).mem = s.mem := rfl
@[simp] theorem State.completeCycle_fb (s : State) (e : Rat) : (completeCycle e s).fb = s.fb := rfl
@[simp] theorem State.completeCycle_dirty (s : State) (e : Rat) : (completeCycle e s).dirty = s.dirty := rfl
@[simp] theorem State.completeCycle_key (s : State) (e : Rat) : (completeCycle e s).key = s.key := rfl
@[simp] theorem State.completeCycle_cur (s : State) (e : Rat) : (completeCycle e s).cur = s.cur := rfl
@[simp] theorem State.completeCycle_fault (s : State) (e : Rat) : (completeCycle e s).fault = s.fault := rfl
@[simp] theorem State.completeCycle_rndDraws (s : State) (e : Rat) :
    (completeCycle e s).rndDraws = s.rndDraws := rfl
@[simp] theorem State.completeCycle_dtDraws (s : State) (e : Rat) :
    (completeCycle e s).dtDraws = s.dtDraws + 1 := rfl

/-! ## rejectCycle -/

@[simp] theorem State.rejectCycle_v (s : State) (r : FaultRecord) : (rejectCycle s r).v = s.v := rfl
@[simp] theorem State.rejectCycle_i (s : State) (r : FaultRecord) : (rejectCycle s r).i = s.i := rfl
@[simp] theorem State.rejectCycle_pc (s : State) (r : FaultRecord) : (rejectCycle s r).pc = s.pc := rfl
@[simp] theorem State.rejectCycle_sp (s : State) (r : FaultRecord) : (rejectCycle s r).sp = s.sp := rfl
@[simp] theorem State.rejectCycle_stack (s : State) (r : FaultRecord) :
    (rejectCycle s r).stack = s.stack := rfl
@[simp] theorem State.rejectCycle_dt (s : State) (r : FaultRecord) : (rejectCycle s r).dt = s.dt := rfl
@[simp] theorem State.rejectCycle_st (s : State) (r : FaultRecord) : (rejectCycle s r).st = s.st := rfl
@[simp] theorem State.rejectCycle_acc (s : State) (r : FaultRecord) : (rejectCycle s r).acc = s.acc := rfl
@[simp] theorem State.rejectCycle_mem (s : State) (r : FaultRecord) : (rejectCycle s r).mem = s.mem := rfl
@[simp] theorem State.rejectCycle_fb (s : State) (r : FaultRecord) : (rejectCycle s r).fb = s.fb := rfl
@[simp] theorem State.rejectCycle_dirty (s : State) (r : FaultRecord) :
    (rejectCycle s r).dirty = s.dirty := rfl
@[simp] theorem State.rejectCycle_key (s : State) (r : FaultRecord) : (rejectCycle s r).key = s.key := rfl
@[simp] theorem State.rejectCycle_cur (s : State) (r : FaultRecord) : (rejectCycle s r).cur = s.cur := rfl
@[simp] theorem State.rejectCycle_fault (s : State) (r : FaultRecord) :
    (rejectCycle s r).fault = some r := rfl
@[simp] theorem State.rejectCycle_rndDraws (s : State) (r : FaultRecord) :
    (rejectCycle s r).rndDraws = s.rndDraws := rfl
@[simp] theorem State.rejectCycle_dtDraws (s : State) (r : FaultRecord) :
    (rejectCycle s r).dtDraws = s.dtDraws := rfl

/-! ## resetOp -/

@[simp] theorem State.resetOp_v (s : State) : (resetOp s).v = State.reset.v := rfl
@[simp] theorem State.resetOp_i (s : State) : (resetOp s).i = State.reset.i := rfl
@[simp] theorem State.resetOp_pc (s : State) : (resetOp s).pc = State.reset.pc := rfl
@[simp] theorem State.resetOp_sp (s : State) : (resetOp s).sp = State.reset.sp := rfl
@[simp] theorem State.resetOp_stack (s : State) : (resetOp s).stack = State.reset.stack := rfl
@[simp] theorem State.resetOp_dt (s : State) : (resetOp s).dt = State.reset.dt := rfl
@[simp] theorem State.resetOp_st (s : State) : (resetOp s).st = State.reset.st := rfl
@[simp] theorem State.resetOp_acc (s : State) : (resetOp s).acc = State.reset.acc := rfl
@[simp] theorem State.resetOp_mem (s : State) : (resetOp s).mem = State.reset.mem := rfl
@[simp] theorem State.resetOp_fb (s : State) : (resetOp s).fb = State.reset.fb := rfl
@[simp] theorem State.resetOp_dirty (s : State) : (resetOp s).dirty = State.reset.dirty := rfl
@[simp] theorem State.resetOp_key (s : State) : (resetOp s).key = State.reset.key := rfl
@[simp] theorem State.resetOp_cur (s : State) : (resetOp s).cur = State.reset.cur := rfl
@[simp] theorem State.resetOp_fault (s : State) : (resetOp s).fault = State.reset.fault := rfl
@[simp] theorem State.resetOp_rndDraws (s : State) : (resetOp s).rndDraws = s.rndDraws := rfl
@[simp] theorem State.resetOp_dtDraws (s : State) : (resetOp s).dtDraws = s.dtDraws := rfl

/-! ## storeAtPc -/

@[simp] theorem State.storeAtPc_v (s : State) (w : Word) : (storeAtPc w s).v = s.v := rfl
@[simp] theorem State.storeAtPc_i (s : State) (w : Word) : (storeAtPc w s).i = s.i := rfl
@[simp] theorem State.storeAtPc_pc (s : State) (w : Word) : (storeAtPc w s).pc = s.pc := rfl
@[simp] theorem State.storeAtPc_sp (s : State) (w : Word) : (storeAtPc w s).sp = s.sp := rfl
@[simp] theorem State.storeAtPc_stack (s : State) (w : Word) : (storeAtPc w s).stack = s.stack := rfl
@[simp] theorem State.storeAtPc_dt (s : State) (w : Word) : (storeAtPc w s).dt = s.dt := rfl
@[simp] theorem State.storeAtPc_st (s : State) (w : Word) : (storeAtPc w s).st = s.st := rfl
@[simp] theorem State.storeAtPc_acc (s : State) (w : Word) : (storeAtPc w s).acc = s.acc := rfl
@[simp] theorem State.storeAtPc_mem (s : State) (w : Word) :
    (storeAtPc w s).mem = if s.pc.toNat + 1 > 0xFFF then s.mem else s.mem.writeBytes s.pc.toNat (bytesOfWord w) := rfl
@[simp] theorem State.storeAtPc_fb (s : State) (w : Word) : (storeAtPc w s).fb = s.fb := rfl
@[simp] theorem State.storeAtPc_dirty (s : State) (w : Word) : (storeAtPc w s).dirty = s.dirty := rfl
@[simp] theorem State.storeAtPc_key (s : State) (w : Word) : (storeAtPc w s).key = s.key := rfl
@[simp] theorem State.storeAtPc_cur (s : State) (w : Word) : (storeAtPc w s).cur = s.cur := rfl
@[simp] theorem State.storeAtPc_fault (s : State) (w : Word) : (storeAtPc w s).fault = none := rfl
@[simp] theorem State.storeAtPc_rndDraws (s : State) (w : Word) : (storeAtPc w s).rndDraws = s.rndDraws := rfl
@[simp] theorem State.storeAtPc_dtDraws (s : State) (w : Word) : (storeAtPc w s).dtDraws = s.dtDraws := rfl

/-! ## setKeyFlag -/

@[simp] theorem State.setKeyFlag_v (s : State) (k : Key) (b : Bool) : (setKeyFlag k b s).v = s.v := rfl
@[simp] theorem State.setKeyFlag_i (s : State) (k : Key) (b : Bool) : (setKeyFlag k b s).i = s.i := rfl
@[simp] theorem State.setKeyFlag_pc (s : State) (k : Key) (b : Bool) : (setKeyFlag k b s).pc = s.pc := rfl
@[simp] theorem State.setKeyFlag_sp (s : State) (k : Key) (b : Bool) : (setKeyFlag k b s).sp = s.sp := rfl
@[simp] theorem State.setKeyFlag_stack (s : State) (k : Key) (b : Bool) :
    (setKeyFlag k b s).stack = s.stack := rfl
@[simp] theorem State.setKeyFlag_dt (s : State) (k : Key) (b : Bool) : (setKeyFlag k b s).dt = s.dt := rfl
@[simp] theorem State.setKeyFlag_st (s : State) (k : Key) (b : Bool) : (setKeyFlag k b s).st = s.st := rfl
@[simp] theorem State.setKeyFlag_acc (s : State) (k : Key) (b : Bool) : (setKeyFlag k b s).acc = s.acc := rfl
@[simp] theorem State.setKeyFlag_mem (s : State) (k : Key) (b : Bool) : (setKeyFlag k b s).mem = s.mem := rfl
@[simp] theorem State.setKeyFlag_fb (s : State) (k : Key) (b : Bool) : (setKeyFlag k b s).fb = s.fb := rfl
@[simp] theorem State.setKeyFlag_dirty (s : State) (k : Key) (b : Bool) :
    (setKeyFlag k b s).dirty = s.dirty := rfl
@[simp] theorem State.setKeyFlag_key (s : State) (k : Key) (b : Bool) :
    (setKeyFlag k b s).key = s.key.set k b := rfl
@[simp] theorem State.setKeyFlag_cur (s : State) (k : Key) (b : Bool) : (setKeyFlag k b s).cur = s.cur := rfl
@[simp] theorem State.setKeyFlag_fault (s : State) (k : Key) (b : Bool) :
    (setKeyFlag k b s).fault = s.fault := rfl
@[simp] theorem State.setKeyFlag_rndDraws (s : State) (k : Key) (b : Bool) :
    (setKeyFlag k b s).rndDraws = s.rndDraws := rfl
@[simp] theorem State.setKeyFlag_dtDraws (s : State) (k : Key) (b : Bool) :
    (setKeyFlag k b s).dtDraws = s.dtDraws := rfl

/-! ## Registers under the updates that leave them alone -/

@[simp] theorem State.reg_recordFault (s : State) (c : FaultCode) (p : Word) (w : Option Word) (r : Reg) :
    (s.recordFault c p w).reg r = s.reg r := rfl
@[simp] theorem State.reg_advance (s : State) (w : Word) (r : Reg) : (s.advance w).reg r = s.reg r := rfl
@[simp] theorem State.reg_skipIf (s : State) (c : Bool) (r : Reg) : (s.skipIf c).reg r = s.reg r := rfl
@[simp] theorem State.reg_completeCycle (s : State) (e : Rat) (r : Reg) :
    (completeCycle e s).reg r = s.reg r := rfl
@[simp] theorem State.reg_rejectCycle (s : State) (f : FaultRecord) (r : Reg) :
    (rejectCycle s f).reg r = s.reg r := rfl

end Sys2Proof.Machine
end

