-- ==== Sys2Proof/Laws/Exec.lean ====
section
/-! SUPPORT. What each shared operation of the handlers can do, said once; and that every handler answers a next
state. -/

namespace Sys2Proof.Machine

/-- Raising a fault writes the record and nothing else. -/
theorem raiseFault_eq (code : FaultCode) (s : State) :
    raiseFault code s = .next (s.recordFault code (s.pc - 2) (some s.cur)) := rfl

/-- A guarded effect happens whole, or the fault is raised and none of it happens. -/
theorem guarded_cases (check : Option FaultCode) (s e : State) :
    (check = none ∧ guarded check s e = .next e) ∨
    ∃ code, check = some code ∧ guarded check s e = raiseFault code s := by
  cases check with
  | none => exact .inl ⟨rfl, rfl⟩
  | some code => exact .inr ⟨code, rfl, rfl⟩

/-- A push fills the slot at SP and counts it, or the stack is full. -/
theorem push_cases (a : Word) (s : State) :
    (∃ h : s.sp.val < 16, push a s = .ok { s with stack := s.stack.set s.sp.val a, sp := ⟨s.sp.val + 1, by omega⟩ }) ∨
    (s.sp.val = 16 ∧ push a s = .error .stackOverflow) := by
  unfold push
  by_cases h : s.sp.val < 16
  · exact .inl ⟨h, dif_pos h⟩
  · exact .inr ⟨by omega, dif_neg h⟩

/-- A pop gives the top entry and counts it out, or the stack is empty. -/
theorem pop_cases (s : State) :
    (∃ h : 0 < s.sp.val, pop s = .ok (s.stack[s.sp.val - 1]'(by omega), { s with sp := ⟨s.sp.val - 1, by omega⟩ })) ∨
    (s.sp.val = 0 ∧ pop s = .error .stackUnderflow) := by
  unfold pop
  by_cases h : 0 < s.sp.val
  · exact .inl ⟨h, dif_pos h⟩
  · exact .inr ⟨by omega, dif_neg h⟩

/-- Under the decided policy a failed push or pop raises its fault. -/
theorem stackFailure_eq (code : FaultCode) (s : State) :
    stackFailure Config.stackPolicy code s = raiseFault code s := rfl

/-- A value is a key number exactly below 16. -/
theorem keyNumber_eq_none {b : Byte} : keyNumber b = none ↔ 16 ≤ b.toNat := by
  unfold keyNumber; split <;> simp <;> omega

theorem keyNumber_eq_some {b : Byte} {k : Key} : keyNumber b = some k ↔ b.toNat = k.val := by
  unfold keyNumber
  split
  · simp [Fin.ext_iff]
  · simp; omega

/-- A skip on a key moves pc by the key's level, or the register holds no key number. -/
theorem skipOnKey_cases (x : Reg) (wanted : Bool) (s : State) :
    (∃ k : Key, (s.reg x).toNat = k.val ∧ skipOnKey x wanted s = .next (s.skipIf (s.keyDown k == wanted))) ∨
    (16 ≤ (s.reg x).toNat ∧ skipOnKey x wanted s = raiseFault .keyIndexOutOfRange s) := by
  unfold skipOnKey
  cases h : keyNumber (s.reg x) with
  | none => exact .inr ⟨keyNumber_eq_none.mp h, rfl⟩
  | some k => exact .inl ⟨k, keyNumber_eq_some.mp h, rfl⟩

/-- The scan finds a pressed key below which none is pressed. -/
theorem lowestKey_eq_some {s : State} {k : Key} :
    lowestKey s = some k ↔ s.keyDown k = true ∧ ∀ j, j < k → s.keyDown j = false := by
  unfold lowestKey
  rw [List.find?_eq_some_iff_getElem]
  simp only [List.getElem_finRange, List.length_finRange]
  constructor
  · rintro ⟨hk, i, hi, rfl, hj⟩
    refine ⟨hk, fun j hlt => ?_⟩
    have := hj j.val hlt
    simpa using this
  · rintro ⟨hk, hj⟩
    refine ⟨hk, k.val, k.isLt, by simp, fun j hlt => ?_⟩
    have := hj ⟨j, by omega⟩ hlt
    simp [this]

/-- The scan finds nothing exactly when no key is pressed. -/
theorem lowestKey_eq_none {s : State} : lowestKey s = none ↔ ∀ k, s.keyDown k = false := by
  simp [lowestKey]

@[simp] theorem length_decimalDigits (b : Byte) : (decimalDigits b).length = 3 := rfl

@[simp] theorem length_regsUpTo (x : Reg) (s : State) : (regsUpTo x s).length = x.val + 1 := by
  simp [regsUpTo]

theorem getElem_regsUpTo (x : Reg) (s : State) (k : Nat) (h : k < (regsUpTo x s).length) :
    (regsUpTo x s)[k] = s.reg ⟨k, by simp at h; omega⟩ := by
  simp [regsUpTo, State.reg]

theorem reg_loadRegs (x : Reg) (a : Nat) (s : State) (r : Reg) :
    State.reg { s with v := loadRegs x a s } r = if r ≤ x then s.mem.read (a + r.val) else s.reg r := by
  simp [State.reg, loadRegs]

/-- A handler that ends in a raised fault, a register write, a skip or a guarded effect answers a next state. -/
theorem guarded_next (check : Option FaultCode) (s e : State) : ∃ t, guarded check s e = .next t := by
  rcases guarded_cases check s e with ⟨_, h⟩ | ⟨c, _, h⟩ <;> exact ⟨_, h⟩

/-- Every handler answers a next state: none refuses and none stops the machine. -/
theorem exec_next (i : Instr) (s : State) : ∃ t, exec i s = .next t := by
  cases i with
  | ret ign =>
    rcases pop_cases s with ⟨_, h⟩ | ⟨_, h⟩ <;> simp [exec, execRet, h, stackFailure_eq, raiseFault]
  | call nnn =>
    rcases push_cases s.pc s with ⟨_, h⟩ | ⟨_, h⟩ <;> simp [exec, execCall, h, stackFailure_eq, raiseFault]
  | skp x => rcases skipOnKey_cases x true s with ⟨_, _, h⟩ | ⟨_, h⟩ <;> exact ⟨_, h⟩
  | sknp x => rcases skipOnKey_cases x false s with ⟨_, _, h⟩ | ⟨_, h⟩ <;> exact ⟨_, h⟩
  | ldVxK x => cases h : lowestKey s <;> simp [exec, execLdVxK, h, writeReg]
  | drw x y n => exact guarded_next ..
  | ldB x => exact guarded_next ..
  | ldMemVx x => exact guarded_next ..
  | ldVxMem x => exact guarded_next ..
  | cls ign => exact ⟨_, rfl⟩
  | sys nnn => exact ⟨_, rfl⟩
  | jp nnn => exact ⟨_, rfl⟩
  | seImm x kk => exact ⟨_, rfl⟩
  | sneImm x kk => exact ⟨_, rfl⟩
  | seReg x y ign => exact ⟨_, rfl⟩
  | ldImm x kk => exact ⟨_, rfl⟩
  | addImm x kk => exact ⟨_, rfl⟩
  | ldReg x y => exact ⟨_, rfl⟩
  | orReg x y => exact ⟨_, rfl⟩
  | andReg x y => exact ⟨_, rfl⟩
  | xorReg x y => exact ⟨_, rfl⟩
  | addReg x y => exact ⟨_, rfl⟩
  | subReg x y => exact ⟨_, rfl⟩
  | shr x y => exact ⟨_, rfl⟩
  | subnReg x y => exact ⟨_, rfl⟩
  | shl x y => exact ⟨_, rfl⟩
  | sneReg x y ign => exact ⟨_, rfl⟩
  | ldI nnn => exact ⟨_, rfl⟩
  | jpV0 nnn => exact ⟨_, rfl⟩
  | rnd x kk => exact ⟨_, rfl⟩
  | ldVxDt x => exact ⟨_, rfl⟩
  | ldDtVx x => exact ⟨_, rfl⟩
  | ldStVx x => exact ⟨_, rfl⟩
  | addI x => exact ⟨_, rfl⟩
  | ldF x => exact ⟨_, rfl⟩
  | nop w => exact ⟨_, rfl⟩

/-! ## The end of a cycle -/

theorem finishCycle_of_fault {e : Rat} {s t : State} {r : FaultRecord} (h : t.fault = some r) :
    finishCycle e s t = rejectCycle s r := by simp [finishCycle, h]

theorem finishCycle_of_none {e : Rat} {s t : State} (h : t.fault = none) :
    finishCycle e s t = completeCycle e t := by simp [finishCycle, h]

/-- Everything a cycle can do: it answers the recorded fault, rejects for the fetch, or runs the fetched
instruction's handler and then rejects or completes. -/
theorem cycle_cases (e : Rat) (s : State) :
    (∃ r, s.fault = some r ∧ cycle e s = .fault (.latched r.code)) ∨
    (s.fault = none ∧ fetchWord s = none ∧
      cycle e s = .next (rejectCycle s { code := .fetchOutOfRange, pc := s.pc, word := none })) ∨
    (∃ w t, s.fault = none ∧ fetchWord s = some w ∧ exec (decode w) (s.advance w) = .next t ∧
      cycle e s = .next (finishCycle e s t)) := by
  unfold cycle
  cases hf : s.fault with
  | some r => exact .inl ⟨r, rfl, rfl⟩
  | none =>
    cases hw : fetchWord s with
    | none => exact .inr (.inl ⟨rfl, rfl, rfl⟩)
    | some w =>
      obtain ⟨t, ht⟩ := exec_next (decode w) (s.advance w)
      exact .inr (.inr ⟨w, t, rfl, rfl, ht, by simp [runInstr, ht]⟩)

theorem fetchWord_eq_none {s : State} : fetchWord s = none ↔ s.pc.toNat + 1 > 0xFFF := by
  unfold fetchWord; split <;> simp_all

theorem fetchWord_eq_some {s : State} {w : Word} :
    fetchWord s = some w ↔ s.pc.toNat + 1 ≤ 0xFFF ∧
      w = wordOfBytes (s.mem.read s.pc.toNat) (s.mem.read (s.pc.toNat + 1)) := by
  unfold fetchWord
  split
  · simp; omega
  · simp only [Option.some.injEq]; constructor
    · intro h; exact ⟨by omega, h.symm⟩
    · intro h; exact h.2.symm

end Sys2Proof.Machine
end

