-- ==== Sys2Proof/Laws/Memory.lean ====
section
/-! SUPPORT. What the memory operations do (20_memory R66, R68, R71): a read after a write, that a write leaves
every other byte alone, and that every operation keeps the canonical form. -/

namespace Sys2Proof.Machine

/-! ## Reading back -/

theorem Mem.read_erase (m : Mem) (a b : Nat) :
    (m.erase a).read b = if b = a then resetByte b else m.read b := by
  induction m with
  | nil => simp [Mem.erase, Mem.read]
  | cons c m ih =>
    obtain ⟨c, y⟩ := c
    unfold Mem.erase at ih ⊢
    by_cases hc : c = a
    · subst hc
      simp only [List.filter_cons, ne_eq, not_true_eq_false, decide_false, Bool.false_eq_true, if_false, ih]
      by_cases hb : b = c <;> simp [Mem.read, hb]
    · simp only [List.filter_cons, ne_eq, hc, not_false_eq_true, decide_true, if_true, Mem.read, ih]
      by_cases hb : b = c
      · subst hb; simp [hc]
      · simp [hb]

theorem Mem.read_place_same (m : Mem) (a : Nat) (x : Byte) (h : ∀ c ∈ m, c.1 ≠ a) :
    (m.place a x).read a = x := by
  induction m with
  | nil => simp [Mem.place, Mem.read]
  | cons c m ih =>
    obtain ⟨c, y⟩ := c
    have hc : a ≠ c := fun e => h (c, y) (by simp) e.symm
    unfold Mem.place
    split
    · simp [Mem.read]
    · simp only [Mem.read, hc, if_false]
      exact ih fun d hd => h d (by simp [hd])

theorem Mem.read_place_ne (m : Mem) {a b : Nat} (x : Byte) (h : b ≠ a) :
    (m.place a x).read b = m.read b := by
  induction m with
  | nil => simp [Mem.place, Mem.read, h]
  | cons c m ih =>
    obtain ⟨c, y⟩ := c
    unfold Mem.place
    split
    · simp [Mem.read, h]
    · simp only [Mem.read, ih]

/-- A read after a write: the byte written, and every other byte as before. No premise on the memory. -/
theorem Mem.read_write (m : Mem) (a b : Nat) (x : Byte) :
    (m.write a x).read b = if b = a then x else m.read b := by
  unfold Mem.write
  split
  · rename_i hx
    rw [Mem.read_erase]
    by_cases hb : b = a
    · subst hb; simp [hx]
    · simp [hb]
  · by_cases hb : b = a
    · subst hb
      rw [Mem.read_place_same _ _ _ (by simp [Mem.erase])]
      simp
    · rw [Mem.read_place_ne _ _ hb, Mem.read_erase, if_neg hb, if_neg hb]

@[simp] theorem Mem.read_write_same (m : Mem) (a : Nat) (x : Byte) : (m.write a x).read a = x := by
  simp [Mem.read_write]

theorem Mem.read_write_ne (m : Mem) {a b : Nat} (x : Byte) (h : b ≠ a) :
    (m.write a x).read b = m.read b := by
  simp [Mem.read_write, h]

/-- Bytes written in a row leave every byte outside the row alone. -/
theorem Mem.read_writeBytes_outside (bs : List Byte) :
    ∀ (m : Mem) (a b : Nat), (b < a ∨ a + bs.length ≤ b) → (m.writeBytes a bs).read b = m.read b := by
  induction bs with
  | nil => intros; rfl
  | cons x xs ih =>
    intro m a b h
    simp only [List.length_cons] at h
    rw [Mem.writeBytes, ih _ _ _ (by omega), Mem.read_write_ne _ _ (by omega)]

/-- Bytes written in a row are read back. -/
theorem Mem.read_writeBytes_inside (bs : List Byte) :
    ∀ (m : Mem) (a k : Nat) (h : k < bs.length), (m.writeBytes a bs).read (a + k) = bs[k] := by
  induction bs with
  | nil => intro _ _ k h; simp at h
  | cons x xs ih =>
    intro m a k h
    cases k with
    | zero =>
      rw [Mem.writeBytes, Mem.read_writeBytes_outside _ _ _ _ (by omega)]
      simp
    | succ k =>
      have hk : k < xs.length := by simpa using h
      rw [Mem.writeBytes, show a + (k + 1) = a + 1 + k by omega, ih _ _ _ hk]
      simp

/-! ## The canonical form -/

theorem Mem.wf_nil : Mem.wf [] := by simp [Mem.wf]

theorem Mem.wf_erase {m : Mem} (h : m.wf) (a : Nat) : (m.erase a).wf :=
  ⟨h.1.filter _, fun c hc => h.2 c (List.mem_filter.mp hc).1⟩

theorem Mem.mem_place {m : Mem} {a : Nat} {x : Byte} {c : Host.Cell} (h : c ∈ m.place a x) :
    c = (a, x) ∨ c ∈ m := by
  induction m with
  | nil => left; simpa [Mem.place] using h
  | cons d m ih =>
    obtain ⟨d, y⟩ := d
    unfold Mem.place at h
    split at h
    · rcases List.mem_cons.mp h with h | h
      · exact .inl h
      · exact .inr h
    · rcases List.mem_cons.mp h with h | h
      · exact .inr (by simp [h])
      · rcases ih h with h | h
        · exact .inl h
        · exact .inr (by simp [h])

theorem Mem.wf_place {m : Mem} (h : m.wf) {a : Nat} {x : Byte} (ha : a < Config.memSize)
    (hx : x ≠ resetByte a) (hm : ∀ c ∈ m, c.1 ≠ a) : (m.place a x).wf := by
  refine ⟨?_, fun c hc => ?_⟩
  · induction m with
    | nil => simp [Mem.place]
    | cons d m ih =>
      obtain ⟨d, y⟩ := d
      have hp := List.pairwise_cons.mp h.1
      have hd : d ≠ a := hm (d, y) (by simp)
      unfold Mem.place
      split
      · rename_i lt
        refine List.pairwise_cons.mpr ⟨fun c hc => ?_, h.1⟩
        rcases List.mem_cons.mp hc with rfl | hc
        · exact lt
        · exact Nat.lt_trans lt (hp.1 c hc)
      · refine List.pairwise_cons.mpr ⟨fun c hc => ?_, ih ⟨hp.2, fun c hc => h.2 c (by simp [hc])⟩
          fun c hc => hm c (by simp [hc])⟩
        rcases Mem.mem_place hc with rfl | hc
        · show d < a; omega
        · exact hp.1 c hc
  · rcases Mem.mem_place hc with rfl | hc
    · exact ⟨ha, hx⟩
    · exact h.2 c hc

/-- A write in range keeps the canonical form. -/
theorem Mem.wf_write {m : Mem} (h : m.wf) {a : Nat} (x : Byte) (ha : a < Config.memSize) :
    (m.write a x).wf := by
  unfold Mem.write
  split
  · exact Mem.wf_erase h a
  · exact Mem.wf_place (Mem.wf_erase h a) ha ‹_› (by simp [Mem.erase])

/-- Writes in a row, all in range, keep the canonical form. -/
theorem Mem.wf_writeBytes (bs : List Byte) :
    ∀ {m : Mem} {a : Nat}, m.wf → a + bs.length ≤ Config.memSize → (m.writeBytes a bs).wf := by
  induction bs with
  | nil => intro m a h _; exact h
  | cons x xs ih =>
    intro m a h ha
    simp only [List.length_cons] at ha
    exact ih (Mem.wf_write h x (by omega)) (by omega)

/-- In the canonical form a cell is what its address reads as. -/
theorem Mem.read_of_mem {m : Mem} (h : m.wf) {c : Host.Cell} (hc : c ∈ m) : m.read c.1 = c.2 := by
  induction m with
  | nil => simp at hc
  | cons d m ih =>
    obtain ⟨d, y⟩ := d
    have hp := List.pairwise_cons.mp h.1
    rcases List.mem_cons.mp hc with rfl | hc
    · simp [Mem.read]
    · have : c.1 ≠ d := Nat.ne_of_gt (hp.1 c hc)
      simp only [Mem.read, this, if_false]
      exact ih ⟨hp.2, fun e he => h.2 e (by simp [he])⟩ hc

/-! ## The range checks -/

theorem readFault_eq_none {a n : Nat} : readFault a n = none ↔ n = 0 ∨ a + n - 1 ≤ 0xFFF := by
  unfold readFault; split <;> simp_all

theorem readFault_cases (a n : Nat) : readFault a n = none ∨ readFault a n = some .readOutOfRange := by
  unfold readFault; split <;> simp

theorem writeFault_eq_none {a n : Nat} :
    writeFault a n = none ↔ a + n - 1 ≤ 0xFFF ∧ Config.programStart ≤ a := by
  unfold writeFault
  split
  · simp; omega
  · split <;> simp <;> omega

theorem resetByte_of_programStart_le {a : Nat} (h : Config.programStart ≤ a) : resetByte a = 0 := by
  unfold resetByte; rw [if_neg (by omega)]

end Sys2Proof.Machine
end

