-- ==== Sys2Proof/Laws/PerInstr.lean ====
section
/-! SUPPORT. A law made per instruction: the instruction's word has the fixed bits of its own row of the opcode
table (30_encoding R102). -/

namespace Sys2Proof.Laws.TableRow

/-- The row of the opcode table with the instruction's mnemonic selects the instruction's word. -/
def Statement (i : Instr) : Prop :=
  ∃ r ∈ opcodeTable, r.mnemonic = i.mnemonic ∧ r.selects (encode i) = true

/-- A row and its fixed bits show the law. -/
theorem of_row {i : Instr} (r : TableRow) (hm : r ∈ opcodeTable) (hn : r.mnemonic = i.mnemonic)
    (hs : encode i &&& r.mask = r.pattern) : Statement i :=
  ⟨r, hm, hn, by simp [Sys2Proof.TableRow.selects, hs]⟩

theorem cls (ign : Nibble) : Statement (.cls ign) :=
  of_row ⟨"CLS", 0x00E0, 0xF0FF⟩ (by decide) rfl ((and_F0FF _).trans (by simp [encode]; rfl))

theorem ret (ign : Nibble) : Statement (.ret ign) :=
  of_row ⟨"RET", 0x00EE, 0xF0FF⟩ (by decide) rfl ((and_F0FF _).trans (by simp [encode]; rfl))

theorem sys (nnn : Addr12) : Statement (.sys nnn) :=
  of_row ⟨"SYS_nnn", 0x0000, 0xF000⟩ (by decide) rfl ((and_F000 _).trans (by simp [encode]; rfl))

theorem jp (nnn : Addr12) : Statement (.jp nnn) :=
  of_row ⟨"JP_nnn", 0x1000, 0xF000⟩ (by decide) rfl ((and_F000 _).trans (by simp [encode]; rfl))

theorem call (nnn : Addr12) : Statement (.call nnn) :=
  of_row ⟨"CALL_nnn", 0x2000, 0xF000⟩ (by decide) rfl ((and_F000 _).trans (by simp [encode]; rfl))

theorem seImm (x : Reg) (kk : Byte) : Statement (.seImm x kk) :=
  of_row ⟨"SE_Vx__kk", 0x3000, 0xF000⟩ (by decide) rfl ((and_F000 _).trans (by simp [encode]; rfl))

theorem sneImm (x : Reg) (kk : Byte) : Statement (.sneImm x kk) :=
  of_row ⟨"SNE_Vx__kk", 0x4000, 0xF000⟩ (by decide) rfl ((and_F000 _).trans (by simp [encode]; rfl))

theorem seReg (x : Reg) (y : Reg) (ign : Nibble) : Statement (.seReg x y ign) :=
  of_row ⟨"SE_Vx__Vy", 0x5000, 0xF000⟩ (by decide) rfl ((and_F000 _).trans (by simp [encode]; rfl))

theorem ldImm (x : Reg) (kk : Byte) : Statement (.ldImm x kk) :=
  of_row ⟨"LD_Vx__kk", 0x6000, 0xF000⟩ (by decide) rfl ((and_F000 _).trans (by simp [encode]; rfl))

theorem addImm (x : Reg) (kk : Byte) : Statement (.addImm x kk) :=
  of_row ⟨"ADD_Vx__kk", 0x7000, 0xF000⟩ (by decide) rfl ((and_F000 _).trans (by simp [encode]; rfl))

theorem ldReg (x : Reg) (y : Reg) : Statement (.ldReg x y) :=
  of_row ⟨"LD_Vx__Vy", 0x8000, 0xF00F⟩ (by decide) rfl ((and_F00F _).trans (by simp [encode]; rfl))

theorem orReg (x : Reg) (y : Reg) : Statement (.orReg x y) :=
  of_row ⟨"OR_Vx__Vy", 0x8001, 0xF00F⟩ (by decide) rfl ((and_F00F _).trans (by simp [encode]; rfl))

theorem andReg (x : Reg) (y : Reg) : Statement (.andReg x y) :=
  of_row ⟨"AND_Vx__Vy", 0x8002, 0xF00F⟩ (by decide) rfl ((and_F00F _).trans (by simp [encode]; rfl))

theorem xorReg (x : Reg) (y : Reg) : Statement (.xorReg x y) :=
  of_row ⟨"XOR_Vx__Vy", 0x8003, 0xF00F⟩ (by decide) rfl ((and_F00F _).trans (by simp [encode]; rfl))

theorem addReg (x : Reg) (y : Reg) : Statement (.addReg x y) :=
  of_row ⟨"ADD_Vx__Vy", 0x8004, 0xF00F⟩ (by decide) rfl ((and_F00F _).trans (by simp [encode]; rfl))

theorem subReg (x : Reg) (y : Reg) : Statement (.subReg x y) :=
  of_row ⟨"SUB_Vx__Vy", 0x8005, 0xF00F⟩ (by decide) rfl ((and_F00F _).trans (by simp [encode]; rfl))

theorem shr (x : Reg) (y : Reg) : Statement (.shr x y) :=
  of_row ⟨"SHR_Vx____Vy", 0x8006, 0xF00F⟩ (by decide) rfl ((and_F00F _).trans (by simp [encode]; rfl))

theorem subnReg (x : Reg) (y : Reg) : Statement (.subnReg x y) :=
  of_row ⟨"SUBN_Vx__Vy", 0x8007, 0xF00F⟩ (by decide) rfl ((and_F00F _).trans (by simp [encode]; rfl))

theorem shl (x : Reg) (y : Reg) : Statement (.shl x y) :=
  of_row ⟨"SHL_Vx____Vy", 0x800E, 0xF00F⟩ (by decide) rfl ((and_F00F _).trans (by simp [encode]; rfl))

theorem sneReg (x : Reg) (y : Reg) (ign : Nibble) : Statement (.sneReg x y ign) :=
  of_row ⟨"SNE_Vx__Vy", 0x9000, 0xF000⟩ (by decide) rfl ((and_F000 _).trans (by simp [encode]; rfl))

theorem ldI (nnn : Addr12) : Statement (.ldI nnn) :=
  of_row ⟨"LD_I__nnn", 0xA000, 0xF000⟩ (by decide) rfl ((and_F000 _).trans (by simp [encode]; rfl))

theorem jpV0 (nnn : Addr12) : Statement (.jpV0 nnn) :=
  of_row ⟨"JP_V0__nnn", 0xB000, 0xF000⟩ (by decide) rfl ((and_F000 _).trans (by simp [encode]; rfl))

theorem rnd (x : Reg) (kk : Byte) : Statement (.rnd x kk) :=
  of_row ⟨"RND_Vx__kk", 0xC000, 0xF000⟩ (by decide) rfl ((and_F000 _).trans (by simp [encode]; rfl))

theorem drw (x : Reg) (y : Reg) (n : Nibble) : Statement (.drw x y n) :=
  of_row ⟨"DRW_Vx__Vy__n", 0xD000, 0xF000⟩ (by decide) rfl ((and_F000 _).trans (by simp [encode]; rfl))

theorem skp (x : Reg) : Statement (.skp x) :=
  of_row ⟨"SKP_Vx", 0xE09E, 0xF0FF⟩ (by decide) rfl ((and_F0FF _).trans (by simp [encode]; rfl))

theorem sknp (x : Reg) : Statement (.sknp x) :=
  of_row ⟨"SKNP_Vx", 0xE0A1, 0xF0FF⟩ (by decide) rfl ((and_F0FF _).trans (by simp [encode]; rfl))

theorem ldVxDt (x : Reg) : Statement (.ldVxDt x) :=
  of_row ⟨"LD_Vx__DT", 0xF007, 0xF0FF⟩ (by decide) rfl ((and_F0FF _).trans (by simp [encode]; rfl))

theorem ldVxK (x : Reg) : Statement (.ldVxK x) :=
  of_row ⟨"LD_Vx__K", 0xF00A, 0xF0FF⟩ (by decide) rfl ((and_F0FF _).trans (by simp [encode]; rfl))

theorem ldDtVx (x : Reg) : Statement (.ldDtVx x) :=
  of_row ⟨"LD_DT__Vx", 0xF015, 0xF0FF⟩ (by decide) rfl ((and_F0FF _).trans (by simp [encode]; rfl))

theorem ldStVx (x : Reg) : Statement (.ldStVx x) :=
  of_row ⟨"LD_ST__Vx", 0xF018, 0xF0FF⟩ (by decide) rfl ((and_F0FF _).trans (by simp [encode]; rfl))

theorem addI (x : Reg) : Statement (.addI x) :=
  of_row ⟨"ADD_I__Vx", 0xF01E, 0xF0FF⟩ (by decide) rfl ((and_F0FF _).trans (by simp [encode]; rfl))

theorem ldF (x : Reg) : Statement (.ldF x) :=
  of_row ⟨"LD_F__Vx", 0xF029, 0xF0FF⟩ (by decide) rfl ((and_F0FF _).trans (by simp [encode]; rfl))

theorem ldB (x : Reg) : Statement (.ldB x) :=
  of_row ⟨"LD_B__Vx", 0xF033, 0xF0FF⟩ (by decide) rfl ((and_F0FF _).trans (by simp [encode]; rfl))

theorem ldMemVx (x : Reg) : Statement (.ldMemVx x) :=
  of_row ⟨"LD__I___Vx", 0xF055, 0xF0FF⟩ (by decide) rfl ((and_F0FF _).trans (by simp [encode]; rfl))

theorem ldVxMem (x : Reg) : Statement (.ldVxMem x) :=
  of_row ⟨"LD_Vx___I", 0xF065, 0xF0FF⟩ (by decide) rfl ((and_F0FF _).trans (by simp [encode]; rfl))

theorem nop (w : Word) : Statement (.nop w) :=
  of_row ⟨"NOP__no-op_handler__every_word_not_matched_above", 0x0000, 0x0000⟩ (by decide) rfl (by simp)

end Sys2Proof.Laws.TableRow
end

