-- ==== Sys2Proof/Machine/Assembly.lean ====
section
/-! DEFINITION. The assembler syntax (30_encoding R103): one instruction per line, operands separated by commas,
registers V0 to VF in either case, hexadecimal numbers, literal keywords, labels and `DB`. Text is a list of
characters. The machine does not depend on this file. -/

namespace Sys2Proof.Assembly

/-- An operand as written. -/
inductive Operand where
  | reg (r : Reg)
  | num (n : Nat)
  /-- A bare decimal number, which only DRW takes, as its row count (DESIGN CHOICE, log entry 17). -/
  | count (n : Nat)
  | regI
  | delay
  | sound
  | key
  | font
  | bcd
  | atI
  | label (name : List Char)
deriving DecidableEq, Repr

/-- What a line places in memory, before labels are resolved. -/
inductive Item where
  | insn (mnemonic : List Char) (operands : List Operand)
  | db (b : Byte)
deriving DecidableEq, Repr

/-- One source line: an optional label, and optionally an item. -/
structure Line where
  label : Option (List Char)
  item : Option Item
deriving DecidableEq, Repr

/-- The digits of the registers' names and of numbers, in the order of their values. -/
def digitNames : List Char := "0123456789ABCDEF".toList

/-- The place of a digit in the order of the digits, letters in either case. -/
def digitValue (c : Char) : Option Nat := digitNames.idxOf? c.toUpper

/-- The number that one or more digits write in a base of at most sixteen. -/
def numeral (base : Nat) (cs : List Char) : Option Nat :=
  match cs.mapM digitValue with
  | none => none
  | some ds => if ds ≠ [] ∧ ds.all (· < base) then some (ds.foldl (fun n d => base * n + d) 0) else none

/-- A character of a label. -/
def isLabelChar (c : Char) : Bool := c.isAlphanum || c == '_'

/-- A label operand. -/
def labelOperand (cs : List Char) : Option Operand :=
  if cs ≠ [] ∧ cs.all isLabelChar then some (.label cs) else none

/-- A register operand: V and one hexadecimal digit, in either case. -/
def registerOperand : List Char → Option Operand
  | [v, d] =>
    if v = 'V' ∨ v = 'v' then (digitValue d).map (fun n => .reg (Fin.ofNat 16 n)) else none
  | _ => none

/-- A literal keyword. -/
def keywordOperand (cs : List Char) : Option Operand :=
  if cs = ['I'] then some .regI
  else if cs = ['D', 'T'] then some .delay
  else if cs = ['S', 'T'] then some .sound
  else if cs = ['K'] then some .key
  else if cs = ['F'] then some .font
  else if cs = ['B'] then some .bcd
  else if cs = ['[', 'I', ']'] then some .atI
  else none

/-- A number operand (R103): `0x..` or `#..` in hexadecimal. A bare number is decimal and only a row count: DESIGN
CHOICE (log entry 17), safe, because R103 gives no form for DRW's row count and 95_test_vectors P3 writes it bare. -/
def numberOperand : List Char → Option Operand
  | '0' :: 'x' :: ds => (numeral 16 ds).map .num
  | '#' :: ds => (numeral 16 ds).map .num
  | ds => (numeral 10 ds).map .count

/-- An operand from its text. -/
def parseOperand (cs : List Char) : Option Operand :=
  (numberOperand cs).or ((registerOperand cs).or ((keywordOperand cs).or (labelOperand cs)))

/-- Text without blanks at its front. -/
def trimFront (cs : List Char) : List Char := cs.dropWhile (· == ' ')

/-- Text without blanks at either end. -/
def trim (cs : List Char) : List Char := (trimFront (trimFront cs).reverse).reverse

/-- Text split at every `sep`. -/
def splitAt (sep : Char) : List Char → List (List Char)
  | [] => [[]]
  | c :: cs =>
    if c = sep then [] :: splitAt sep cs
    else match splitAt sep cs with
      | [] => [[c]]
      | p :: ps => (c :: p) :: ps

/-- The operands of an instruction, separated by commas; none where the text is blank. -/
def parseOperands (cs : List Char) : Option (List Operand) :=
  if trim cs = [] then some [] else ((splitAt ',' cs).map trim).mapM parseOperand

/-- An instruction or `DB` from its text; none where the text is blank. -/
def parseItem (cs : List Char) : Option (Option Item) :=
  let name := (trim cs).takeWhile (· != ' ')
  let rest := (trim cs).dropWhile (· != ' ')
  if name = [] then some none
  else match parseOperands rest with
    | none => none
    | some ops =>
      if name = ['D', 'B'] then
        match ops with
        | [.num n] => if n < 256 then some (some (.db (BitVec.ofNat 8 n))) else none
        | _ => none
      else some (some (.insn name ops))

/-- A source line: text before a colon is a label (R103). -/
def parseLine (cs : List Char) : Option Line :=
  match splitAt ':' cs with
  | [body] => (parseItem body).map (fun item => { label := none, item := item })
  | [name, body] =>
    match labelOperand (trim name), parseItem body with
    | some (.label l), some item => some { label := some l, item := item }
    | _, _ => none
  | _ => none

/-- How many bytes a line places: two for an instruction, one for `DB` (R90, R103). -/
def Line.size (l : Line) : Nat :=
  match l.item with
  | none => 0
  | some (.insn _ _) => 2
  | some (.db _) => 1

/-- Where each label stands: the address of the next instruction or byte (R103). -/
def labelTable : Nat → List Line → List (List Char × Nat)
  | _, [] => []
  | a, l :: ls => match l.label with
    | some name => (name, a) :: labelTable (a + l.size) ls
    | none => labelTable (a + l.size) ls

/-- A 12-bit operand: a number, or a label (R103). A label that several lines define names the address of the first of
them: DESIGN CHOICE (log entry 17), safe, because R103 does not say which it names or whether the text is rejected. -/
def addressOperand (labels : List (List Char × Nat)) : Operand → Option Addr12
  | .num n => if n < 4096 then some (BitVec.ofNat 12 n) else none
  | .label name => match labels.lookup name with
    | some a => if a < 4096 then some (BitVec.ofNat 12 a) else none
    | none => none
  | .count _ => none
  | .font => none
  | .bcd => none
  | .key => none
  | .reg _ => none
  | .regI => none
  | .delay => none
  | .sound => none
  | .atI => none

/-- An 8-bit immediate. -/
def byteOperand (n : Nat) : Option Byte := if n < 256 then some (BitVec.ofNat 8 n) else none

/-- The `LD` forms (R95). -/
def assembleLd (labels : List (List Char × Nat)) : List Operand → Option Instr
  | [.reg x, .num n] => (byteOperand n).map (.ldImm x)
  | [.reg x, .reg y] => some (.ldReg x y)
  | [.reg x, .delay] => some (.ldVxDt x)
  | [.reg x, .key] => some (.ldVxK x)
  | [.reg x, .atI] => some (.ldVxMem x)
  | [.delay, .reg x] => some (.ldDtVx x)
  | [.sound, .reg x] => some (.ldStVx x)
  | [.font, .reg x] => some (.ldF x)
  | [.bcd, .reg x] => some (.ldB x)
  | [.atI, .reg x] => some (.ldMemVx x)
  | [.regI, a] => (addressOperand labels a).map .ldI
  | _ => none

/-- The `ADD` forms (R95). -/
def assembleAdd : List Operand → Option Instr
  | [.reg x, .num n] => (byteOperand n).map (.addImm x)
  | [.reg x, .reg y] => some (.addReg x y)
  | [.regI, .reg x] => some (.addI x)
  | _ => none

/-- `SE` and `SNE` (R95). -/
def assembleSkip (imm : Reg → Byte → Instr) (regs : Reg → Reg → Instr) : List Operand → Option Instr
  | [.reg x, .num n] => (byteOperand n).map (imm x)
  | [.reg x, .reg y] => some (regs x y)
  | _ => none

/-- The forms with two registers (R95). -/
def assembleXY (f : Reg → Reg → Instr) : List Operand → Option Instr
  | [.reg x, .reg y] => some (f x y)
  | _ => none

/-- `SHR` and `SHL`: the second register may be omitted; y is then 0 (R103). -/
def assembleShift (f : Reg → Reg → Instr) : List Operand → Option Instr
  | [.reg x, .reg y] => some (f x y)
  | [.reg x] => some (f x 0)
  | _ => none

/-- The forms with one register (R95). -/
def assembleX (f : Reg → Instr) : List Operand → Option Instr
  | [.reg x] => some (f x)
  | _ => none

/-- The forms with one address (R95). -/
def assembleAddress (labels : List (List Char × Nat)) (f : Addr12 → Instr) : List Operand → Option Instr
  | [a] => (addressOperand labels a).map f
  | _ => none

/-- `JP` (R95). -/
def assembleJp (labels : List (List Char × Nat)) : List Operand → Option Instr
  | [a] => (addressOperand labels a).map .jp
  | [.reg r, a] => if r = 0 then (addressOperand labels a).map .jpV0 else none
  | _ => none

/-- A row count, below 16. -/
def rowCount (n : Nat) : Option Nibble := if n < 16 then some (BitVec.ofNat 4 n) else none

/-- `DRW` (R95). The row count is a bare decimal number, as 95_test_vectors P3 writes it, or a number of R103's form:
DESIGN CHOICE (log entry 17), safe, because R103 gives a form for immediates and addresses only. -/
def assembleDrw : List Operand → Option Instr
  | [.reg x, .reg y, .count n] => (rowCount n).map (.drw x y)
  | [.reg x, .reg y, .num n] => (rowCount n).map (.drw x y)
  | _ => none

/-- `RND` (R95). -/
def assembleRnd : List Operand → Option Instr
  | [.reg x, .num n] => (byteOperand n).map (.rnd x)
  | _ => none

/-- An instruction without operands (R95); a bit its handler ignores assembles as 0. -/
def assembleNone (i : Instr) : List Operand → Option Instr
  | [] => some i
  | _ => none

/-- The instruction a mnemonic and its operands stand for: exactly one pattern of R95. -/
def assembleInsn (labels : List (List Char × Nat)) (name : List Char) (ops : List Operand) : Option Instr :=
  if name = ['C', 'L', 'S'] then assembleNone (.cls 0) ops
  else if name = ['R', 'E', 'T'] then assembleNone (.ret 0) ops
  else if name = ['S', 'Y', 'S'] then assembleAddress labels .sys ops
  else if name = ['J', 'P'] then assembleJp labels ops
  else if name = ['C', 'A', 'L', 'L'] then assembleAddress labels .call ops
  else if name = ['S', 'E'] then assembleSkip .seImm (fun x y => .seReg x y 0) ops
  else if name = ['S', 'N', 'E'] then assembleSkip .sneImm (fun x y => .sneReg x y 0) ops
  else if name = ['L', 'D'] then assembleLd labels ops
  else if name = ['A', 'D', 'D'] then assembleAdd ops
  else if name = ['O', 'R'] then assembleXY .orReg ops
  else if name = ['A', 'N', 'D'] then assembleXY .andReg ops
  else if name = ['X', 'O', 'R'] then assembleXY .xorReg ops
  else if name = ['S', 'U', 'B'] then assembleXY .subReg ops
  else if name = ['S', 'H', 'R'] then assembleShift .shr ops
  else if name = ['S', 'U', 'B', 'N'] then assembleXY .subnReg ops
  else if name = ['S', 'H', 'L'] then assembleShift .shl ops
  else if name = ['R', 'N', 'D'] then assembleRnd ops
  else if name = ['D', 'R', 'W'] then assembleDrw ops
  else if name = ['S', 'K', 'P'] then assembleX .skp ops
  else if name = ['S', 'K', 'N', 'P'] then assembleX .sknp ops
  else none

/-- The bytes of a line: a well-formed instruction's word, high byte first, or one data byte. -/
def lineBytes (labels : List (List Char × Nat)) (l : Line) : Option (List Byte) :=
  match l.item with
  | none => some []
  | some (.db b) => some [b]
  | some (.insn name ops) =>
    match assembleInsn labels name ops with
    | some i => if i.wellFormed then some (bytesOfWord (encode i)) else none
    | none => none

/-- The bytes of a source text placed at an address; none where a line does not follow the syntax. -/
def assemble (start : Nat) (text : List (List Char)) : Option (List Byte) :=
  match text.mapM parseLine with
  | none => none
  | some lines => (lines.mapM (lineBytes (labelTable start lines))).map List.flatten

end Sys2Proof.Assembly
end

