-- ==== Sys2Proof/Tests/Slice0.lean ====
section
/-! SUPPORT. The model's own tests: ill-formed terms refused, words written out bit by bit from 30_encoding decoded, one
or two steps of each instruction with the results that 95_test_vectors gives, the assembler on that file's text, and a
witness for the premises of each statement. -/

namespace Sys2Proof.Tests

set_option Elab.async false

open Sys2Proof Sys2Proof.Machine

/-! ## Helpers -/

/-- The next state of an outcome. -/
def nextOf : Host.Outcome State Fault Refusal → Option State
  | .next t => some t
  | .fault _ => none
  | .refused _ => none

/-- The reset state with values in some registers. -/
def regs (l : List (Reg × Byte)) : State := l.foldl (fun s p => s.setReg p.1 p.2) State.reset

/-- One cycle with no elapsed time, of a word placed at pc. -/
def run (w : Word) (s : State) : Option State := nextOf (cycle 0 (storeAtPc w s))

/-- One cycle with 1/60 second elapsed, of a word placed at pc. -/
def tickRun (w : Word) (s : State) : Option State := nextOf (cycle (1 / 60) (storeAtPc w s))

/-- The state with bytes stored from an address. -/
def bytesAt (a : Nat) (bs : List Byte) (s : State) : State := { s with mem := s.mem.writeBytes a bs }

/-- The state with one pixel lit. -/
def lit (p : Pixel) (s : State) : State := { s with fb := s.fb.setPixel p true }

/-- The code a cycle recorded. -/
def codeOf (o : Option State) : Option FaultCode := o.bind (fun t => t.fault.map (·.code))

/-! ## WellFormed: ill-formed terms are refused (R96, R101) -/

theorem test_sys_of_cls_word_ill_formed : (Instr.sys 0x0E0).wellFormed = false := by decide
theorem test_sys_of_ret_word_ill_formed : (Instr.sys 0x3EE).wellFormed = false := by decide
theorem test_nop_of_matched_8_word_ill_formed : (Instr.nop 0x8AB6).wellFormed = false := by decide
theorem test_nop_of_matched_E_word_ill_formed : (Instr.nop 0xEA9E).wellFormed = false := by decide
theorem test_nop_of_matched_F_word_ill_formed : (Instr.nop 0xFA65).wellFormed = false := by decide
theorem test_nop_of_other_family_ill_formed : (Instr.nop 0x0000).wellFormed = false := by decide

/-! ## Decoding: a word of each row, its bits from R95 (95_test_vectors, family D) -/

theorem test_decode_cls : decode 0b0000000111100000 = Instr.cls 1 := by decide
theorem test_decode_ret : decode 0b0000111011101110 = Instr.ret 0xE := by decide
theorem test_decode_sys : decode 0b0000000011100001 = Instr.sys 0x0E1 := by decide
theorem test_decode_jp : decode 0b0001101010111100 = Instr.jp 0xABC := by decide
theorem test_decode_call : decode 0b0010101010111100 = Instr.call 0xABC := by decide
theorem test_decode_seImm : decode 0b0011101001000010 = Instr.seImm 0xA 0x42 := by decide
theorem test_decode_sneImm : decode 0b0100101001000010 = Instr.sneImm 0xA 0x42 := by decide
theorem test_decode_seReg : decode 0b0101101010110111 = Instr.seReg 0xA 0xB 7 := by decide
theorem test_decode_ldImm : decode 0b0110101001000010 = Instr.ldImm 0xA 0x42 := by decide
theorem test_decode_addImm : decode 0b0111101001000010 = Instr.addImm 0xA 0x42 := by decide
theorem test_decode_ldReg : decode 0b1000101010110000 = Instr.ldReg 0xA 0xB := by decide
theorem test_decode_orReg : decode 0b1000101010110001 = Instr.orReg 0xA 0xB := by decide
theorem test_decode_andReg : decode 0b1000101010110010 = Instr.andReg 0xA 0xB := by decide
theorem test_decode_xorReg : decode 0b1000101010110011 = Instr.xorReg 0xA 0xB := by decide
theorem test_decode_addReg : decode 0b1000101010110100 = Instr.addReg 0xA 0xB := by decide
theorem test_decode_subReg : decode 0b1000101010110101 = Instr.subReg 0xA 0xB := by decide
theorem test_decode_shr : decode 0b1000101010110110 = Instr.shr 0xA 0xB := by decide
theorem test_decode_subnReg : decode 0b1000101010110111 = Instr.subnReg 0xA 0xB := by decide
theorem test_decode_shl : decode 0b1000101010111110 = Instr.shl 0xA 0xB := by decide
theorem test_decode_sneReg : decode 0b1001101010111111 = Instr.sneReg 0xA 0xB 0xF := by decide
theorem test_decode_ldI : decode 0b1010101010111100 = Instr.ldI 0xABC := by decide
theorem test_decode_jpV0 : decode 0b1011101010111100 = Instr.jpV0 0xABC := by decide
theorem test_decode_rnd : decode 0b1100101001000010 = Instr.rnd 0xA 0x42 := by decide
theorem test_decode_drw : decode 0b1101101010110101 = Instr.drw 0xA 0xB 5 := by decide
theorem test_decode_skp : decode 0b1110101010011110 = Instr.skp 0xA := by decide
theorem test_decode_sknp : decode 0b1110101010100001 = Instr.sknp 0xA := by decide
theorem test_decode_ldVxDt : decode 0b1111101000000111 = Instr.ldVxDt 0xA := by decide
theorem test_decode_ldVxK : decode 0b1111101000001010 = Instr.ldVxK 0xA := by decide
theorem test_decode_ldDtVx : decode 0b1111101000010101 = Instr.ldDtVx 0xA := by decide
theorem test_decode_ldStVx : decode 0b1111101000011000 = Instr.ldStVx 0xA := by decide
theorem test_decode_addI : decode 0b1111101000011110 = Instr.addI 0xA := by decide
theorem test_decode_ldF : decode 0b1111101000101001 = Instr.ldF 0xA := by decide
theorem test_decode_ldB : decode 0b1111101000110011 = Instr.ldB 0xA := by decide
theorem test_decode_ldMemVx : decode 0b1111101001010101 = Instr.ldMemVx 0xA := by decide
theorem test_decode_ldVxMem : decode 0b1111101001100101 = Instr.ldVxMem 0xA := by decide
theorem test_decode_nop : decode 0b1000101010111000 = Instr.nop 0x8AB8 ∧ decode 0b1110101010011111 = Instr.nop 0xEA9F ∧
    decode 0b1111101001110101 = Instr.nop 0xFA75 := by decide
theorem test_decode_bytes_big_endian : decodeBytes [0x1A, 0xBC, 0xFF] = .ok (Instr.jp 0xABC, [0xFF]) := by decide
theorem test_decode_truncated : decodeBytes [0x1A] = .error .truncated := by decide
theorem test_decode_table_word : decodeTableWord 16 0x6A42 = some (Instr.ldImm 0xA 0x42) := by decide

/-! ## The cycle, faults and the timers (95_test_vectors, families C and E) -/

/-- E1.1 -/
theorem test_nop_cycle_advances :
    (run 0x8008 (regs [(0, 0x11)])).map (fun t => (t.pc, t.cur, t.reg 0, t.fault)) = some (0x202, 0x8008, 0x11, none) := by decide +kernel
/-- E1.7 -/
theorem test_nop_cycle_ticks :
    (tickRun 0x8008 { State.reset with dt := 3, st := 3 }).map (fun t => (t.dt, t.st, t.acc)) = some (2, 2, 0) := by decide +kernel
/-- C12 -/
theorem test_sys_only_advances :
    (run 0x0123 { State.reset with pc := 0x300 }).map (fun t => (t.pc, t.v, t.sp)) =
      some (0x302, State.reset.v, 0) := by decide +kernel
/-- C3 -/
theorem test_fetch_fault_at_FFF :
    (nextOf (cycle 0 { State.reset with pc := 0xFFF })).map (fun t => (t.pc, t.fault)) =
      some (0xFFF, some { code := .fetchOutOfRange, pc := 0xFFF, word := none }) := by decide +kernel
/-- C1 -/
theorem test_last_word_runs :
    (run 0x00E0 { State.reset with pc := 0xFFE }).map (fun t => (t.pc, t.fault)) = some (0x1000, none) := by decide +kernel
/-- C4 -/
theorem test_odd_pc_fetches :
    (run 0x6A42 { State.reset with pc := 0x201 }).map (fun t => (t.pc, t.reg 0xA)) = some (0x203, 0x42) := by decide +kernel
/-- C10 -/
theorem test_tick_consumed_at_zero :
    (tickRun 0x8008 State.reset).map (fun t => (t.dt, t.st, t.acc)) = some (0, 0, 0) := by decide +kernel
/-- C9 -/
theorem test_one_tick_per_cycle :
    (nextOf (cycle (3 / 60) (storeAtPc 0x8008 { State.reset with dt := 5 }))).map (fun t => (t.dt, t.acc)) =
      some (4, 2 / 60) := by decide +kernel
/-- C11 -/
theorem test_rejected_cycle_has_no_tick :
    (tickRun 0x00EE { State.reset with dt := 5 }).map (fun t => (t.dt, t.acc, codeOf (some t), t.pc)) =
      some (5, 0, some .stackUnderflow, 0x200) := by decide +kernel
/-- R250: the codes 1 to 7 -/
theorem test_fault_codes : [FaultCode.fetchOutOfRange, .readOutOfRange, .writeOutOfRange, .reservedWrite, .stackOverflow,
    .stackUnderflow, .keyIndexOutOfRange].map FaultCode.number = [1, 2, 3, 4, 5, 6, 7] := by decide
/-- C5; R291 (a): the run has ended -/
theorem test_faulted_end : Faulted { State.reset with fault := some { code := .stackUnderflow, pc := 0x300, word := none } } :=
  rfl
/-- C5 -/
theorem test_latched_fault_answers :
    cycle (1 / 60) { State.reset with fault := some { code := .stackUnderflow, pc := 0x300, word := some 0x00EE } } =
      .fault (.latched .stackUnderflow) := by rfl

/-! ## Control flow (family F) -/

/-- F6 -/
theorem test_ret_pops :
    (run 0x00EE { State.reset with sp := 2, stack := State.reset.stack.set 1 0x0ABC }).map
      (fun t => (t.pc, t.sp, t.stack[1])) = some (0x0ABC, 1, 0x0ABC) := by decide +kernel
/-- F1 -/
theorem test_jp_self :
    (run 0x1200 State.reset).map (·.pc) = some 0x200 := by decide +kernel
/-- F4 -/
theorem test_call_fills_last_slot :
    (run 0x2400 { State.reset with sp := 15, pc := 0x250 }).map (fun t => (t.pc, t.sp, t.stack[15])) =
      some (0x400, 16, 0x252) := by decide +kernel
/-- F5 -/
theorem test_call_overflows :
    (run 0x2400 { State.reset with sp := 16 }).map (fun t => (t.pc, t.sp, codeOf (some t))) =
      some (0x200, 16, some .stackOverflow) := by decide +kernel
/-- F8, R144 -/
theorem test_se_imm :
    (run 0x3F42 (regs [(15, 0x42)])).map (·.pc) = some 0x204 ∧ (run 0x3342 (regs [(3, 0x41)])).map (·.pc) = some 0x202 := by decide +kernel
/-- F10, R145 -/
theorem test_sne_imm :
    (run 0x4000 State.reset).map (·.pc) = some 0x202 ∧ (run 0x4342 State.reset).map (·.pc) = some 0x204 := by decide +kernel
/-- F11, R146 -/
theorem test_se_reg :
    (run 0x512F (regs [(1, 7), (2, 7)])).map (·.pc) = some 0x204 ∧ (run 0x5120 (regs [(1, 7)])).map (·.pc) = some 0x202 := by decide +kernel
/-- F14, F13 -/
theorem test_sne_reg :
    (run 0x912A (regs [(1, 7), (2, 8)])).map (·.pc) = some 0x204 ∧ (run 0x9110 (regs [(1, 9)])).map (·.pc) = some 0x202 := by decide +kernel
/-- F15 -/
theorem test_skip_past_the_end :
    (run 0x3000 { State.reset with pc := 0xFFC }).map (fun t => (t.pc, t.fault)) = some (0x1000, none) := by decide +kernel
/-- F16 -/
theorem test_jp_v0_not_reduced :
    (run 0xBF01 (regs [(0, 0xFF)])).map (fun t => (t.pc, t.fault)) = some (0x1000, none) := by decide +kernel
/-- F19 -/
theorem test_jp_v0_uses_v0 :
    (run 0xB300 (regs [(3, 0x99), (0, 0x04)])).map (·.pc) = some 0x304 := by decide +kernel

/-! ## Arithmetic and logic (families A and E) -/

/-- A1 -/
theorem test_ld_imm_vf :
    (run 0x6FAA (State.reset)).map (fun t => t.reg 15) = some 0xAA := by decide +kernel
/-- E2 -/
theorem test_add_imm_wraps :
    (run 0x73FF (regs [(3, 0x05), (15, 0x01)])).map (fun t => (t.reg 3, t.reg 15)) = some (0x04, 0x01) := by decide +kernel
/-- A2 -/
theorem test_add_imm_to_vf :
    (run 0x7FFF (regs [(15, 0x01)])).map (fun t => t.reg 15) = some 0x00 := by decide +kernel
/-- A4 -/
theorem test_ld_reg :
    (run 0x8F20 (regs [(2, 0x5A), (15, 0x77)])).map (fun t => (t.reg 15, t.reg 2)) = some (0x5A, 0x5A) := by decide +kernel
/-- A6 -/
theorem test_or_keeps_vf :
    (run 0x8121 (regs [(1, 0xF0), (2, 0x0F), (15, 0x55)])).map (fun t => (t.reg 1, t.reg 15)) = some (0xFF, 0x55) := by decide +kernel
/-- A8 -/
theorem test_and :
    (run 0x8122 (regs [(1, 0xF0), (2, 0x3C), (15, 0x55)])).map (fun t => (t.reg 1, t.reg 15)) = some (0x30, 0x55) := by decide +kernel
/-- A9 -/
theorem test_xor :
    (run 0x8123 (regs [(1, 0xF0), (2, 0x3C)])).map (fun t => (t.reg 1, t.reg 2)) = some (0xCC, 0x3C) := by decide +kernel
/-- A10 -/
theorem test_xor_self :
    (run 0x8113 (regs [(1, 0xAB)])).map (fun t => t.reg 1) = some 0x00 := by decide +kernel
/-- A11 -/
theorem test_add_256 :
    (run 0x8124 (regs [(1, 0x80), (2, 0x80)])).map (fun t => (t.reg 1, t.reg 15)) = some (0x00, 1) := by decide +kernel
/-- A14 -/
theorem test_add_vf_flag_last :
    (run 0x8FF4 (regs [(15, 0x80)])).map (fun t => t.reg 15) = some 1 := by decide +kernel
/-- E3.2 -/
theorem test_sub_borrow :
    (run 0x8125 (regs [(1, 0x01), (2, 0x02)])).map (fun t => (t.reg 1, t.reg 15)) = some (0xFF, 0) := by decide +kernel
/-- A17 -/
theorem test_sub_equal_is_strict :
    (run 0x8125 (regs [(1, 0x10), (2, 0x10), (15, 1)])).map (fun t => (t.reg 1, t.reg 15)) = some (0x00, 0) := by decide +kernel
/-- A23 -/
theorem test_subn :
    (run 0x8127 (regs [(1, 0x01), (2, 0x03)])).map (fun t => (t.reg 1, t.reg 15)) = some (0x02, 1) := by decide +kernel
/-- E3.3 -/
theorem test_subn_wraps :
    (run 0x8127 (regs [(1, 0x02), (2, 0x01)])).map (fun t => (t.reg 1, t.reg 15)) = some (0xFF, 0) := by decide +kernel
/-- A26 -/
theorem test_shr_ignores_y :
    (run 0x8566 (regs [(5, 0xFF), (6, 0x00)])).map (fun t => (t.reg 5, t.reg 15)) = some (0x7F, 1) := by decide +kernel
/-- A28 -/
theorem test_shr_vf :
    (run 0x8F06 (regs [(15, 0x02)])).map (fun t => t.reg 15) = some 0 := by decide +kernel
/-- A29 -/
theorem test_shl :
    (run 0x850E (regs [(5, 0x80)])).map (fun t => (t.reg 5, t.reg 15)) = some (0x00, 1) := by decide +kernel
/-- A31 -/
theorem test_shl_vf :
    (run 0x8F0E (regs [(15, 0x40)])).map (fun t => t.reg 15) = some 0 := by decide +kernel
/-- A33, for every byte drawn -/
theorem test_rnd_masks (s : State) :
    nextOf (exec (.rnd 3 0x0F) s) =
      some { s.setReg 3 (Config.randomByte s.rndDraws &&& 0x0F) with rndDraws := s.rndDraws + 1 } := rfl
/-- A34 -/
theorem test_rnd_zero_mask (b : Byte) : b &&& 0x00#8 = 0x00#8 := by simp


/-! ## The index register and memory (family I) -/

/-- I2 -/
theorem test_ld_i :
    (run 0xAFFF State.reset).map (·.i) = some 0xFFF := by decide +kernel
/-- I3 -/
theorem test_add_i_no_12_bit_wrap :
    (run 0xF01E { regs [(0, 0x01), (15, 0x20)] with i := 0x0FFF }).map (fun t => (t.i, t.reg 15)) = some (0x1000, 0x20) := by decide +kernel
/-- I4 -/
theorem test_add_i_wraps_16 :
    (run 0xF01E { regs [(0, 0x02)] with i := 0xFFFF }).map (·.i) = some 0x0001 := by decide +kernel
/-- I8: not masked to 4 bits; for every FONT_BASE -/
theorem test_ld_f_not_masked :
    (nextOf (exec (.ldF 2) (regs [(2, 0x10)]))).map (·.i) = some (BitVec.ofNat 16 (Config.fontBase + 80)) := rfl
/-- E8: the five bytes of glyph A -/
theorem test_glyph_a : (Config.fontGlyphs.drop 50).take 5 = [0xF0, 0x90, 0xF0, 0x90, 0x90] := by decide

/-- I10 -/
theorem test_ld_b :
    (run 0xF033 { regs [(0, 0xFF)] with i := 0x300 }).map (fun t => (t.mem.readBytes 0x300 3, t.i)) = some ([2, 5, 5], 0x300) := by decide +kernel
/-- I15 -/
theorem test_ld_b_below_200 :
    (run 0xF033 { State.reset with i := 0x1FF }).map (fun t => (codeOf (some t), t.pc)) = some (some .reservedWrite, 0x200) := by decide +kernel
/-- I21, R195 -/
theorem test_block_store :
    (run 0xF255 { regs [(0, 0x11), (1, 0x22), (2, 0x33)] with i := 0x400 }).map (fun t => (t.mem.readBytes 0x400 4, t.i)) =
      some ([0x11, 0x22, 0x33, 0], 0x400) := by decide +kernel
/-- I19 -/
theorem test_block_store_past_the_end :
    codeOf (run 0xFF55 { State.reset with i := 0xFF1 }) = some .writeOutOfRange := by decide +kernel
/-- I22 -/
theorem test_block_load :
    (run 0xF265 { bytesAt 0x400 [0x0A, 0x0B, 0x0C, 0x0D] State.reset with i := 0x400 }).map
      (fun t => (t.reg 0, t.reg 2, t.reg 3, t.i)) = some (0x0A, 0x0C, 0, 0x400) := by decide +kernel
/-- I25 -/
theorem test_block_load_past_the_end :
    codeOf (run 0xF165 { State.reset with i := 0xFFF }) = some .readOutOfRange := by decide +kernel

/-! ## Display (family G) -/

/-- G2 -/
theorem test_cls_records_lit_pixels :
    (run 0x00E0 (lit (3, 1) (lit (0, 2) (lit (63, 31) State.reset)))).map (fun t => (t.dirty, t.fb == blankFrame)) =
      some ([(3, 1), (0, 2), (63, 31)], true) := by decide +kernel
/-- G4 -/
theorem test_drw_wraps :
    (run 0xD011 { bytesAt 0x300 [0xFF] (regs [(0, 62), (1, 31)]) with i := 0x300 }).map (fun t => (t.dirty, t.reg 15)) =
      some ([(62, 31), (63, 31), (0, 31), (1, 31), (2, 31), (3, 31), (4, 31), (5, 31)], 0) := by decide +kernel
/-- G7 -/
theorem test_drw_collides :
    (run 0xD001 { bytesAt 0x300 [0xC0] (lit (1, 0) State.reset) with i := 0x300 }).map
      (fun t => (t.fb.pixel (0, 0), t.fb.pixel (1, 0), t.reg 15, t.dirty)) = some (true, false, 1, [(0, 0), (1, 0)]) := by decide +kernel
/-- G8 -/
theorem test_drw_no_rows :
    (run 0xD010 { regs [(15, 1)] with i := 0xFFFF }).map (fun t => (t.reg 15, t.fault, t.dirty)) = some (0, none, []) := by decide +kernel
/-- G10 -/
theorem test_drw_past_the_end :
    codeOf (run 0xD012 { State.reset with i := 0xFFF }) = some .readOutOfRange := by decide +kernel

/-! ## Keys and timers (family K) -/

/-- K1, K2 -/
theorem test_skp :
    (run 0xE49E (setKeyFlag 0xB true (regs [(4, 0x0B)]))).map (·.pc) = some 0x204 ∧
      (run 0xE49E (regs [(4, 0x0B)])).map (·.pc) = some 0x202 := by decide +kernel
/-- K5 -/
theorem test_skp_index_fault :
    codeOf (run 0xE49E (regs [(4, 0x10)])) = some .keyIndexOutOfRange := by decide +kernel
/-- K3, K4 -/
theorem test_sknp :
    (run 0xE4A1 (setKeyFlag 0xB true (regs [(4, 0x0B)]))).map (·.pc) = some 0x202 ∧
      (run 0xE4A1 (regs [(4, 0x0B)])).map (·.pc) = some 0x204 := by decide +kernel
/-- K6 -/
theorem test_sknp_index_fault :
    codeOf (run 0xE4A1 (regs [(4, 0xFF)])) = some .keyIndexOutOfRange := by decide +kernel
/-- K11 -/
theorem test_ld_vx_dt_before_tick :
    (tickRun 0xF507 { State.reset with dt := 0x3C }).map (fun t => (t.reg 5, t.dt)) = some (0x3C, 0x3B) := by decide +kernel
/-- K7 -/
theorem test_ld_vx_k_lowest :
    (run 0xF50A (setKeyFlag 3 true (setKeyFlag 9 true State.reset))).map (fun t => (t.reg 5, t.pc)) = some (3, 0x202) := by decide +kernel
/-- K8 -/
theorem test_ld_vx_k_waits :
    (run 0xF50A (regs [(5, 0x44)])).map (fun t => (t.reg 5, t.pc, t.cur)) = some (0x44, 0x200, 0xF50A) := by decide +kernel
/-- K12 -/
theorem test_ld_dt_vx_then_tick :
    (tickRun 0xF215 (regs [(2, 0x10)])).map (·.dt) = some 0x0F := by decide +kernel
/-- K16 -/
theorem test_ld_st_vx :
    (run 0xF218 { regs [(2, 0x07)] with st := 5 }).map (·.st) = some 7 := by decide +kernel
/-- K14 -/
theorem test_ld_st_vx_ticked_to_zero :
    (tickRun 0xF218 (regs [(2, 0x01)])).map (fun t => (t.st, toneActive t)) = some (0, false) := by decide +kernel

/-! ## Host ports (family H and E10) -/

/-- H1 -/
theorem test_set_key_16_refused : transact (.setKey 16 true) State.reset = .refused (.noSuchKey 16) := by rfl
/-- H3 -/
theorem test_read_pixel_64_refused : transact (.readPixel 64 0) State.reset = .refused (.noSuchPixel 64 0) := by rfl
/-- H7 -/
theorem test_load_keeps_pc :
    ((loadProgram [0x60, 0x01] { State.reset with pc := 0x300 }).2.mem.readBytes 0x200 2,
      (loadProgram [0x60, 0x01] { State.reset with pc := 0x300 }).2.pc) = ([0x60, 0x01], 0x300) := by decide +kernel
/-- E10 -/
theorem test_load_3585_rejected : (loadProgram (List.replicate 3585 0xAA) State.reset).1 = .rejected := by decide +kernel
/-- C6 -/
theorem test_reset_clears_the_fault (r : FaultRecord) :
    transact .reset { State.reset with fault := some r, pc := 0x300, dt := 5 } = .next (.done, State.reset) := by rfl

/-! ## The assembler on the text of programs P1, P3 and P4 (R103) -/

/-- P3, its text as 95_test_vectors has it -/
theorem test_assemble_p3 : Assembly.assemble 0x200
    ["LD I, sprite".toList, "LD V0, 0x00".toList, "DRW V0, V0, 1".toList, "DRW V0, V0, 1".toList,
     "end: JP end".toList, "sprite: DB 0xC0".toList] =
    some [0xA2, 0x0A, 0x60, 0x00, 0xD0, 0x01, 0xD0, 0x01, 0x12, 0x08, 0xC0] := by decide +kernel
/-- P1's loop -/
theorem test_assemble_p1_loop : Assembly.assemble 0x204
    ["loop: ADD V1, 0x01".toList, "ADD V0, 0xFF".toList, "SE V0, 0x00".toList, "JP loop".toList] =
    some [0x71, 0x01, 0x70, 0xFF, 0x30, 0x00, 0x12, 0x04] := by decide +kernel
/-- P4: a shift with its second register left out -/
theorem test_assemble_shift : Assembly.assemble 0x200 ["SHL V3".toList, "SHR V3, V2".toList] =
    some [0x83, 0x0E, 0x83, 0x26] := by decide +kernel
theorem test_assemble_memory_forms : Assembly.assemble 0x200
    ["LD V2, [I]".toList, "LD [I], V2".toList, "LD B, V0".toList, "LD F, VA".toList, "LD ST, V2".toList, "LD V3, K".toList] =
    some [0xF2, 0x65, 0xF2, 0x55, 0xF0, 0x33, 0xFA, 0x29, 0xF2, 0x18, 0xF3, 0x0A] := by decide +kernel
/-- Registers in either case, and both hexadecimal forms (R103); the row count in each of the forms of log entry 17 -/
theorem test_assemble_row_count : Assembly.assemble 0x200
    ["DRW va, vB, 5".toList, "DRW VA, VB, 0x5".toList, "DRW VA, VB, #f".toList, "DRW VA, VB, 15".toList] =
    some [0xDA, 0xB5, 0xDA, 0xB5, 0xDA, 0xBF, 0xDA, 0xBF] ∧
    Assembly.assemble 0x200 ["DRW VA, VB, 16".toList] = none ∧ Assembly.assemble 0x200 ["LD VA, 5".toList] = none ∧
    Assembly.assemble 0x200 ["LD I, 0x".toList] = none := by
  decide +kernel
/-- A label defined twice names the first address (log entry 17) -/
theorem test_assemble_label_twice : Assembly.assemble 0x200 ["a: CLS".toList, "a: RET".toList, "JP a".toList] =
    some [0x00, 0xE0, 0x00, 0xEE, 0x12, 0x00] := by decide +kernel
theorem test_assemble_refuses : Assembly.assemble 0x200 ["LD V0, 0x100".toList] = none ∧
    Assembly.assemble 0x200 ["SYS 0x0E0".toList] = none ∧ Assembly.assemble 0x200 ["JP nowhere".toList] = none := by
  decide +kernel

/-! ## Witnesses: for each statement with premises, a concrete state and operands that meet them together -/

/-- DecodeOfEncode -/
theorem witness_decode_of_encode : (Instr.sys 0x123).wellFormed = true ∧ (Instr.nop 0x8008).wellFormed = true ∧
    (Instr.nop 0xFFFF).wellFormed = true ∧ (Instr.drw 15 0 15).wellFormed = true := by decide
/-- FamilyZeroByLowByte: low bytes next to the two special ones -/
theorem witness_family_zero : (0x0E1#12).extractLsb' 0 8 ≠ 0xE0#8 ∧ (0x0E1#12).extractLsb' 0 8 ≠ 0xEE#8 ∧
    (0xFEF#12).extractLsb' 0 8 ≠ 0xE0#8 ∧ (0xFEF#12).extractLsb' 0 8 ≠ 0xEE#8 := by decide
/-- FamilyEightByLowNibble: the first and the last no-op selector -/
theorem witness_family_eight : 0x8#4 ∈ [0x8#4, 0x9#4, 0xA#4, 0xB#4, 0xC#4, 0xD#4, 0xF#4] ∧
    0xF#4 ∈ [0x8#4, 0x9#4, 0xA#4, 0xB#4, 0xC#4, 0xD#4, 0xF#4] := by decide
/-- FamiliesEAndFByLowByte: low bytes next to handlers' -/
theorem witness_families_e_f : 0x9F#8 ∉ [0x9E#8, 0xA1#8] ∧ 0xA0#8 ∉ [0x9E#8, 0xA1#8] ∧
    0x08#8 ∉ [0x07#8, 0x0A#8, 0x15#8, 0x18#8, 0x1E#8, 0x29#8, 0x33#8, 0x55#8, 0x65#8] ∧
    0x00#8 ∉ [0x07#8, 0x0A#8, 0x15#8, 0x18#8, 0x1E#8, 0x29#8, 0x33#8, 0x55#8, 0x65#8] := by decide
/-- UnmatchedWordsAndTheirCounts: a word of each family -/
theorem witness_unmatched : decode 0x8008 = .nop 0x8008 ∧ decode 0xE000 = .nop 0xE000 ∧ decode 0xFFFF = .nop 0xFFFF := by
  decide
/-- StepRunsTheDecodedInstruction: the last address a word can stand at -/
theorem witness_step_runs : (storeAtPc 0x6A42 { State.reset with pc := 0xFFE }).fault = none ∧
    (storeAtPc 0x6A42 { State.reset with pc := 0xFFE }).pc.toNat + 1 ≤ 0xFFF ∧ (Instr.ldImm 0xA 0x42).wellFormed = true ∧
    decodeBytes [(storeAtPc 0x6A42 { State.reset with pc := 0xFFE }).mem.read 0xFFE,
      (storeAtPc 0x6A42 { State.reset with pc := 0xFFE }).mem.read 0xFFF] = .ok (Instr.ldImm 0xA 0x42, []) := by
  decide +kernel
/-- CycleFollowsItsSteps, the fetch clauses: pc on either side of the end of memory -/
theorem witness_cycle_fetch : (0xFFF#16).toNat + 1 > 0xFFF ∧ (0xFFE#16).toNat + 1 ≤ 0xFFF ∧ State.reset.fault = none := by
  decide
/-- CycleFollowsItsSteps, the last clause: a handler that records a fault, and one that does not -/
theorem witness_cycle_handlers :
    (∃ t, exec (decode 0x00EE) { State.reset with pc := 0x202, cur := 0x00EE } = .next t ∧
      t.fault = some { code := .stackUnderflow, pc := 0x200, word := some 0x00EE }) ∧
    ∃ t, exec (decode 0x0000) { State.reset with pc := 0x202, cur := 0x0000 } = .next t ∧ t.fault = none :=
  ⟨⟨_, rfl, rfl⟩, ⟨_, rfl, rfl⟩⟩
/-- StepAnswersUnlessFaulted -/
theorem witness_no_fault_recorded : State.reset.fault = none := rfl
/-- RejectedCycleChangesOnlyFault: a fetch fault, and a handler's -/
theorem witness_rejected :
    (∃ t, cycle 0 { State.reset with pc := 0xFFF } = .next t ∧
      t.fault = some { code := .fetchOutOfRange, pc := 0xFFF, word := none }) ∧
    ∃ t, cycle 0 (storeAtPc 0x00EE State.reset) = .next t ∧
      t.fault = some { code := .stackUnderflow, pc := 0x200, word := some 0x00EE } :=
  ⟨⟨_, rfl, rfl⟩, ⟨_, rfl, rfl⟩⟩
/-- FaultRecordIsSticky -/
theorem witness_sticky : ∃ t,
    transact (.setKey 3 true) { State.reset with fault := some { code := .stackUnderflow, pc := 0x200, word := none } } =
      .next (.done, t) ∧ HostOp.setKey 3 true ≠ .reset ∧ (∀ e, HostOp.setKey 3 true ≠ .cycle e) ∧ 3 < 16 :=
  ⟨_, rfl, by decide, by simp, by decide⟩
/-- HandlersRaiseExactlyTheTable: each condition at its boundary, and just inside it -/
theorem witness_raises :
    Raises (.drw 0 0 2) { State.reset with i := 0xFFF } .readOutOfRange ∧
    ¬ Raises (.drw 0 0 1) { State.reset with i := 0xFFF } .readOutOfRange ∧
    Raises (.ldVxMem 1) { State.reset with i := 0xFFF } .readOutOfRange ∧
    ¬ Raises (.ldVxMem 0) { State.reset with i := 0xFFF } .readOutOfRange ∧
    Raises (.ldB 0) { State.reset with i := 0xFFE } .writeOutOfRange ∧
    Raises (.ldB 0) { State.reset with i := 0x1FF } .reservedWrite ∧
    Raises (.ldMemVx 15) { State.reset with i := 0xFF1 } .writeOutOfRange ∧
    Raises (.ldMemVx 3) { State.reset with i := 0x1FE } .reservedWrite ∧
    Raises (.call 0x400) { State.reset with sp := 16 } .stackOverflow ∧
    Raises (.ret 0) State.reset .stackUnderflow ∧
    Raises (.skp 4) (regs [(4, 0x10)]) .keyIndexOutOfRange ∧
    ¬ Raises (.skp 4) (regs [(4, 0x0F)]) .keyIndexOutOfRange := by
  simp only [Raises]; decide +kernel
/-- NoOpAndSysHaveNoEffect: a no-op word, and a SYS word -/
theorem witness_no_effect : fetchWord (storeAtPc 0x8008 State.reset) = some 0x8008 ∧ isUnmatchedWord 0x8008 = true ∧
    fetchWord (storeAtPc 0x0123 State.reset) = some 0x0123 ∧ isSysAddress 0x123 = true ∧
    (0x0123 : Word) = wordFNNN 0x0 0x123 := by decide +kernel
/-- ReturnPopsIntoPc: one entry in use, and none -/
theorem witness_ret : 0 < (1 : Fin 17).val ∧ State.reset.fault = none ∧ State.reset.sp.val = 0 := by decide
/-- CallPushesAndJumps: one slot free, and none -/
theorem witness_call : (15 : Fin 17).val < 16 ∧ State.reset.fault = none ∧ (16 : Fin 17).val = 16 := by decide
/-- A word at the last address an instruction can stand at, VA holding the last key number. -/
def atLastWord (w : Word) : State := storeAtPc w { State.reset.setReg 0xA 15 with pc := 0xFFE }

/-- SkipPassesExactlyOneWord: each word form at the last address, where a taken skip leaves 0x1002, and V[x] = 15 -/
theorem witness_skip :
    ((atLastWord 0x3A00).fault = none ∧ fetchWord (atLastWord 0x3A00) = some (wordFXKK 0x3 (regNibble 0xA) 0x00)) ∧
    ((atLastWord 0x4A01).fault = none ∧ fetchWord (atLastWord 0x4A01) = some (wordFXKK 0x4 (regNibble 0xA) 0x01)) ∧
    ((atLastWord 0x5ABF).fault = none ∧
      fetchWord (atLastWord 0x5ABF) = some (wordFXYN 0x5 (regNibble 0xA) (regNibble 0xB) 0xF)) ∧
    ((atLastWord 0x9ABF).fault = none ∧
      fetchWord (atLastWord 0x9ABF) = some (wordFXYN 0x9 (regNibble 0xA) (regNibble 0xB) 0xF)) ∧
    ((atLastWord 0xEA9E).fault = none ∧ fetchWord (atLastWord 0xEA9E) = some (wordFXKK 0xE (regNibble 0xA) 0x9E) ∧
      ((atLastWord 0xEA9E).reg 0xA).toNat < 16) ∧
    (atLastWord 0xEAA1).fault = none ∧ fetchWord (atLastWord 0xEAA1) = some (wordFXKK 0xE (regNibble 0xA) 0xA1) ∧
      ((atLastWord 0xEAA1).reg 0xA).toNat < 16 := by
  decide +kernel
/-- CallThenReturn: program E5, with fifteen entries in use -/
theorem witness_call_then_return :
    (bytesAt 0x300 [0x00, 0xEE] (storeAtPc 0x2300 { State.reset with sp := 15 })).fault = none ∧
    fetchWord (bytesAt 0x300 [0x00, 0xEE] (storeAtPc 0x2300 { State.reset with sp := 15 })) = some (wordFNNN 0x2 0x300) ∧
    wordOfBytes ((bytesAt 0x300 [0x00, 0xEE] (storeAtPc 0x2300 { State.reset with sp := 15 })).mem.read 0x300)
      ((bytesAt 0x300 [0x00, 0xEE] (storeAtPc 0x2300 { State.reset with sp := 15 })).mem.read 0x301) =
      wordFXKK 0x0 0 0xEE ∧
    (bytesAt 0x300 [0x00, 0xEE] (storeAtPc 0x2300 { State.reset with sp := 15 })).sp.val < 16 := by decide +kernel
/-- AddRegistersAndCarry, SubtractAndStrictNoBorrow, ShiftsOfVx, DrawSprite, DrawingTwiceRestores: a register other than VF -/
theorem witness_not_vf : (14 : Reg) ≠ VF ∧ (0 : Reg) ≠ VF := by decide
/-- RandomAnd: an empty mask, and a register that is not the destination -/
theorem witness_random : (0x00 : Byte) = 0 ∧ (4 : Reg) ≠ 3 := by decide
/-- StoreDecimalDigits and BlockStore: the lowest and the highest place, and the first ones past each end -/
theorem witness_store : 0x200 ≤ (0x200#16).toNat ∧ (0xFFD#16).toNat + 2 ≤ 0xFFF ∧ (0xFFE#16).toNat + 2 > 0xFFF ∧
    (0x1FF#16).toNat < 0x200 ∧ (0xFF0#16).toNat + (15 : Reg).val ≤ 0xFFF ∧ (0xFF1#16).toNat + (15 : Reg).val > 0xFFF ∧
    State.reset.fault = none := by decide
/-- BlockLoad: the last place, and one past it -/
theorem witness_load : (0xFFF#16).toNat + (0 : Reg).val ≤ 0xFFF ∧ (0xFFF#16).toNat + (1 : Reg).val > 0xFFF := by decide
/-- FetchSeesTheStore: V0 and V1 hold a word, stored at 0x400 and fetched from there -/
theorem witness_fetch_sees : ∃ t, exec (.ldMemVx 1) { regs [(0, 0x6A), (1, 0x42)] with i := 0x400 } = .next t ∧
    ({ t with pc := 0x400 } : State).mem = t.mem ∧ ({ t with pc := 0x400 } : State).pc.toNat = 0x400 + 0 ∧
    0 < (1 : Reg).val := ⟨_, rfl, rfl, rfl, by decide⟩
/-- DrawSprite: no rows past the end, the last byte, and one past it -/
theorem witness_draw : ((0 : Nibble) = 0 ∨ (0xFFFF#16).toNat + (0 : Nibble).toNat - 1 ≤ 0xFFF) ∧
    ((1 : Nibble) = 0 ∨ (0xFFF#16).toNat + (1 : Nibble).toNat - 1 ≤ 0xFFF) ∧
    ((2 : Nibble) ≠ 0 ∧ (0xFFF#16).toNat + (2 : Nibble).toNat - 1 > 0xFFF) := by decide
/-- DrawSprite: a collision, and none -/
theorem witness_draw_collision : FrameBuffer.pixel (lit (0, 0) State.reset).fb (0, 0) = true ∧
    FrameBuffer.pixel State.reset.fb (0, 0) = false := by decide +kernel
/-- DrawingTwiceRestores: a sprite with a 1 bit on a blank screen (E4.1) -/
theorem witness_draw_twice : (nextOf (exec (.drw 1 2 2) { bytesAt 0x300 [0x3C, 0x81] (regs [(1, 10), (2, 5)]) with i := 0x300 })).map
      (fun t => (t.dirty != [], t.dirty.all (fun p => !FrameBuffer.pixel State.reset.fb p))) = some (true, true) := by
  decide +kernel
/-- DirtySetRecordsExactlyTheChanges, DirtySetIsNeverRead: a step that draws -/
theorem witness_step_draws : ∃ t, step (storeAtPc 0xD001 { bytesAt 0x300 [0xC0] State.reset with i := 0x300 }) = .next t :=
  ⟨_, rfl⟩
/-- SkipOnKey: the highest key number, and one above it -/
theorem witness_key : ((regs [(4, 0x0F)]).reg 4).toNat < 16 ∧ ((regs [(4, 0x10)]).reg 4).toNat > 0xF ∧
    (regs [(4, 0x10)]).fault = none := by decide +kernel
/-- WaitForKey: a lowest pressed key, and no key -/
theorem witness_wait : (setKeyFlag 3 true (setKeyFlag 9 true State.reset)).keyDown 3 = true ∧
    (∀ j : Key, j < 3 → (setKeyFlag 3 true (setKeyFlag 9 true State.reset)).keyDown j = false) ∧
    ∀ k, State.reset.keyDown k = false := by decide +kernel
/-- TimerTick and TimerTransfers: exactly one period, and less -/
theorem witness_tick : (1 / 60 : Rat) ≤ State.reset.acc + 1 / 60 ∧ State.reset.acc + 1 / 61 < (1 / 60 : Rat) := by
  decide +kernel
/-- RegistersFrame: an instruction that leaves a register alone, of each shape -/
theorem witness_registers_frame : (∃ t, exec (.addReg 1 2) State.reset = .next t) ∧ writesReg (.addReg 1 2) 3 = false ∧
    writesReg (.ldVxMem 3) 4 = false ∧ writesReg (.drw 1 2 1) 1 = false ∧ writesReg (.ldMemVx 15) 15 = false :=
  ⟨⟨_, rfl⟩, by decide⟩
/-- IndexPcAndStackFrame -/
theorem witness_index_frame : (∃ t, exec (.addImm 1 2) State.reset = .next t) ∧ writesI (.addImm 1 2) = false ∧
    writesPc (.addImm 1 2) = false ∧ writesStack (.addImm 1 2) = false ∧
    ∃ t, exec (.ret 0) { State.reset with sp := 1 } = .next t := ⟨⟨_, rfl⟩, by decide, by decide, by decide, ⟨_, rfl⟩⟩
/-- DisplayFrame -/
theorem witness_display_frame : (∃ t, exec (.addImm 1 2) State.reset = .next t) ∧ writesDisplay (.addImm 1 2) = false :=
  ⟨⟨_, rfl⟩, by decide⟩
/-- TimersKeysAndHiddenFrame -/
theorem witness_timers_frame : (∃ t, exec (.addImm 1 2) State.reset = .next t) ∧ (∀ x, Instr.addImm 1 2 ≠ .ldDtVx x) ∧
    (∀ x, Instr.addImm 1 2 ≠ .ldStVx x) ∧ ∀ x kk, Instr.addImm 1 2 ≠ .rnd x kk :=
  ⟨⟨_, rfl⟩, by decide, by decide, by simp⟩
/-- MemoryFrame: the bytes on either side of a store, and the reserved low region -/
theorem witness_memory_frame : (∃ t, exec (.ldB 0) { State.reset with i := 0x300 } = .next t) ∧
    ¬ Stores (.ldB 0) { State.reset with i := 0x300 } 0x2FF ∧ ¬ Stores (.ldB 0) { State.reset with i := 0x300 } 0x303 ∧
    Stores (.ldB 0) { State.reset with i := 0x300 } 0x302 ∧ 0x1FF < 0x200 :=
  ⟨⟨_, rfl⟩, by unfold Stores; decide, by unfold Stores; decide, by unfold Stores; decide, by decide⟩
/-- StepKeepsTheInvariant: the invariant at reset, with a step from it -/
theorem witness_invariant : Inv State.reset ∧ ∃ t, step State.reset = .next t :=
  ⟨⟨by simp [State.reset, Mem.wf], fun _ _ => rfl, by decide +kernel⟩, ⟨_, rfl⟩⟩
/-- TransactionsKeepTheInvariant: a transaction from it -/
theorem witness_transaction : ∃ t, transact (.loadProgram [0x12, 0x00]) State.reset = .next (.load .accepted, t) := ⟨_, rfl⟩
/-- ParkedStaysParked -/
theorem witness_parked : Parked (storeAtPc 0x1200 State.reset) := ⟨rfl, 0x200, by decide +kernel, by decide +kernel⟩
/-- CurrentWordIsNeverRead: a completed step, and a rejected one -/
theorem witness_cur : (∃ t, step (storeAtPc 0x6A42 State.reset) = .next t ∧ t.fault = none) ∧
    ∃ t, step (storeAtPc 0x00EE State.reset) = .next t ∧ t.fault ≠ none := ⟨⟨_, rfl, rfl⟩, ⟨_, rfl, by decide⟩⟩
/-- ResetState: a byte of a glyph, and addresses past any font -/
theorem witness_reset : ([[0xF0, 0x90, 0x90, 0x90, 0xF0], [0x20, 0x60, 0x20, 0x20, 0x70]] : List (List Byte))[1]? =
    some [0x20, 0x60, 0x20, 0x20, 0x70] ∧ ([0x20, 0x60, 0x20, 0x20, 0x70] : List Byte)[4]? = some 0x70 ∧
    Config.fontBase + 80 ≤ 0x200 :=
  ⟨by decide, by decide, Nat.le_trans (Nat.add_le_add_right (Nat.le_of_lt_succ Config.fontBaseChoice.isLt) 80) (by decide)⟩
/-- LoadProgramPort, BootLeavesAReadyMachine: the longest program accepted, and one byte more -/
theorem witness_program_length : (List.replicate 3584 (0xAA : Byte)).length ≤ 3584 ∧
    3584 < (List.replicate 3585 (0xAA : Byte)).length := by decide +kernel
/-- KeyAndDrainPorts: the highest key, and one above it -/
theorem witness_set_key : 15 < 16 ∧ 16 ≤ 16 := by decide
/-- ReadingPorts: the last pixel, and one off each edge -/
theorem witness_read_pixel : (63 < 64 ∧ 31 < 32) ∧ 64 ≤ 64 ∧ 32 ≤ 32 := by decide
/-- ToneEdgeCauses: an on edge, an off edge by a tick, and an off edge by reset -/
theorem witness_tone_edges :
    (nextOf (cycle 0 (storeAtPc 0xF218 (regs [(2, 2)])))).map (toneEdge State.reset) = some (some .on) ∧
    (tickRun 0x8008 { State.reset with st := 1 }).map (toneEdge { State.reset with st := 1 }) = some (some .off) ∧
    (run 0xF218 { State.reset with st := 5 }).map (toneEdge { State.reset with st := 5 }) = some (some .off) ∧
    toneEdge { State.reset with st := 5 } (resetOp { State.reset with st := 5 }) = some .off := by decide +kernel

end Sys2Proof.Tests
end

section
/-! PROOFS. RND Vx, kk (42_alu R172; the free byte of 00_scope R14). -/

namespace Sys2Proof.Machine

/-- The word of family C decodes as RND, whatever the register and the mask. -/
theorem decode_wordFXKK_rnd (x : Reg) (kk : Byte) : decode (wordFXKK 0xC (regNibble x) kk) = .rnd x kk := by
  rw [decode_of_family (fieldF_wordFXKK 0xC (regNibble x) kk)]
  simp [regX]

/-- RND writes the masked byte with `setReg` and counts the draw. -/
theorem exec_rnd (x : Reg) (kk : Byte) (s : State) : exec (.rnd x kk) s =
    .next { s.setReg x (Config.randomByte s.rndDraws &&& kk) with rndDraws := s.rndDraws + 1 } := rfl

/-- Settles O28: `exec_rnd` gives the whole state, and the `setReg` rules read Vx and the other registers from it
(the counter of draws is no register); no fact about the drawn byte is used. -/
theorem randomAnd : Obligations.RandomAnd := by
  intro x kk s
  have value : (s.setReg x (Config.randomByte s.rndDraws &&& kk)).reg x = Config.randomByte s.rndDraws &&& kk :=
    State.reg_setReg_same ..
  have zeroMask (hk : kk = 0) : Config.randomByte s.rndDraws &&& kk = 0 := by
    rw [hk]
    exact BitVec.and_zero
  exact ⟨decode_wordFXKK_rnd x kk, _, exec_rnd x kk s, value, fun hk => value.trans (zeroMask hk),
    fun _ hr => State.reg_setReg_ne s _ hr, rfl⟩

end Sys2Proof.Machine
end

section
/-! PROOFS. What a handler can do to the state, said once for all instructions (40_cycle R123), and what each field is
written by (10_state R20 to R38), read off from it. -/

namespace Sys2Proof.Machine

/-- `l` lists, once each, the pixels in which two frame buffers differ. -/
structure ListsChanges (old new : FrameBuffer) (l : List Pixel) : Prop where
  nodup : l.Nodup
  changed : ∀ p, FrameBuffer.pixel new p ≠ FrameBuffer.pixel old p ↔ p ∈ l

theorem ListsChanges.nil (fb : FrameBuffer) : ListsChanges fb fb [] := ⟨List.nodup_nil, by simp⟩

/-- Clearing changes the lit pixels. -/
theorem listsChanges_litPixels (fb : FrameBuffer) : ListsChanges fb blankFrame (litPixels fb) where
  nodup := nodup_litPixels fb
  changed p := by rw [FrameBuffer.pixel_blank, mem_litPixels, ne_comm, Bool.ne_false_iff]

/-- Plotting without repeats changes the plotted pixels. -/
theorem listsChanges_plotAll {ps : List Pixel} (hn : ps.Nodup) (c : Canvas) :
    ListsChanges c.fb (c.plotAll ps).fb ps where
  nodup := hn
  changed p := by rw [Canvas.plotAll_pixel hn]; cases FrameBuffer.pixel c.fb p <;> simp

/-- What a handler can leave of the state it was given: each constructor names the fields written and, by the
instruction, who writes them; every field it does not name is as before. -/
inductive HandlerEffect (i : Instr) (s : State) : State → Prop where
  /-- the fault raised, nothing else written (R251) -/
  | fault (code : FaultCode) : HandlerEffect i s (s.recordFault code (s.pc - 2) (some s.cur))
  /-- general registers; no register at all for a handler without effect -/
  | registers (v : Vector Byte 16) (hv : ∀ r, writesReg i r = false → State.reg { s with v := v } r = s.reg r) :
      HandlerEffect i s { s with v := v }
  /-- a register and the count of random bytes -/
  | random (x : Reg) (kk b : Byte) (hi : i = .rnd x kk) :
      HandlerEffect i s { s.setReg x b with rndDraws := s.rndDraws + 1 }
  | index (a : Word) (hi : writesI i = true) : HandlerEffect i s { s with i := a }
  | counter (p : Word) (hi : writesPc i = true) : HandlerEffect i s { s with pc := p }
  | call (nnn : Addr12) (stack : Vector Word 16) (sp : Fin 17) (p : Word) (hi : i = .call nnn) :
      HandlerEffect i s { s with stack := stack, sp := sp, pc := p }
  | ret (ign : Nibble) (sp : Fin 17) (p : Word) (hi : i = .ret ign) : HandlerEffect i s { s with sp := sp, pc := p }
  /-- pixels, each change of one recorded, and the collision flag -/
  | display (v : Vector Byte 16) (fb : FrameBuffer) (l : List Pixel) (hi : writesDisplay i = true)
      (hv : ∀ r, writesReg i r = false → State.reg { s with v := v } r = s.reg r) (hl : ListsChanges s.fb fb l) :
      HandlerEffect i s { s with v := v, fb := fb, dirty := s.dirty ++ l }
  | delay (x : Reg) (hi : i = .ldDtVx x) : HandlerEffect i s { s with dt := s.reg x }
  | sound (x : Reg) (hi : i = .ldStVx x) : HandlerEffect i s { s with st := s.reg x }
  /-- bytes at I, in range and above the reserved low region -/
  | store (bytes : List Byte) (hi : storedRange i s = (indexAddress s, bytes.length))
      (hw : writeFault (indexAddress s) bytes.length = none) :
      HandlerEffect i s { s with mem := s.mem.writeBytes (indexAddress s) bytes }

/-! ## The effects of the shared operations -/

theorem HandlerEffect.unchanged (i : Instr) (s : State) : HandlerEffect i s s := .registers s.v fun _ _ => rfl

theorem HandlerEffect.setReg {i : Instr} {x : Reg} (hx : ∀ r, writesReg i r = false → r ≠ x) (b : Byte) (s : State) :
    HandlerEffect i s (s.setReg x b) :=
  .registers _ fun r hr => State.reg_setReg_ne s b (hx r hr)

theorem HandlerEffect.setRegAndFlag {i : Instr} {x : Reg} (hx : ∀ r, writesReg i r = false → r ≠ x ∧ r ≠ VF)
    (b f : Byte) (s : State) : HandlerEffect i s ((s.setReg x b).setReg VF f) :=
  .registers _ fun r hr =>
    (State.reg_setReg_ne _ f (hx r hr).2).trans (State.reg_setReg_ne s b (hx r hr).1)

/-- A guarded effect is the effect, with its check passed, or the fault. -/
theorem HandlerEffect.guarded {i : Instr} {s e : State} {check : Option FaultCode}
    (he : check = none → HandlerEffect i s e) : ∃ t, guarded check s e = .next t ∧ HandlerEffect i s t := by
  rcases guarded_cases check s e with ⟨hc, h⟩ | ⟨code, _, h⟩
  · exact ⟨e, h, he hc⟩
  · exact ⟨_, h, .fault code⟩

theorem HandlerEffect.skipOnKey {i : Instr} (hi : writesPc i = true) (x : Reg) (wanted : Bool) (s : State) :
    ∃ t, skipOnKey x wanted s = .next t ∧ HandlerEffect i s t := by
  rcases skipOnKey_cases x wanted s with ⟨_, _, h⟩ | ⟨_, h⟩
  · exact ⟨_, h, .counter _ hi⟩
  · exact ⟨_, h, .fault _⟩

/-- A draw inverts the pixels of its sprite, which has at most 15 rows and so no pixel twice (R212). -/
theorem HandlerEffect.draw (x y : Reg) (n : Nibble) (s : State) : HandlerEffect (.drw x y n) s
    (State.setReg { s with fb := (drawSprite x y n.toNat s).fb, dirty := (drawSprite x y n.toNat s).dirty }
      VF (flagByte (drawSprite x y n.toNat s).hit)) := by
  have rows : (s.mem.readBytes (indexAddress s) n.toNat).length ≤ 32 := by simp [Mem.readBytes]; omega
  rw [show (drawSprite x y n.toNat s).dirty = s.dirty ++ _ from Canvas.plotAll_dirty ..]
  exact .display _ _ _ rfl (fun r hr => State.reg_setReg_ne s _ (ne_of_beq_false hr))
    (listsChanges_plotAll (nodup_spritePixels _ _ _ 0 rows) { fb := s.fb, dirty := s.dirty, hit := false })

/-! ## The effect of every handler -/

/-- Every handler answers a state that is one of the effects. -/
theorem exec_effect (i : Instr) (s : State) : ∃ t, exec i s = .next t ∧ HandlerEffect i s t := by
  cases i with
  | sys | nop => exact ⟨_, rfl, .unchanged ..⟩
  | ldImm | addImm | ldReg | orReg | andReg | xorReg | ldVxDt =>
    exact ⟨_, rfl, .setReg (fun _ hr => ne_of_beq_false hr) ..⟩
  | addReg | subReg | shr | subnReg | shl =>
    exact ⟨_, rfl, .setRegAndFlag (fun r hr => by simpa [writesReg] using hr) ..⟩
  | rnd x kk => exact ⟨_, rfl, .random x kk _ rfl⟩
  | ldI | addI | ldF => exact ⟨_, rfl, .index _ rfl⟩
  | jp | jpV0 | seImm | sneImm | seReg | sneReg => exact ⟨_, rfl, .counter _ rfl⟩
  | skp | sknp => exact HandlerEffect.skipOnKey rfl ..
  | ldVxK x =>
    cases h : lowestKey s with
    | some k =>
      simp only [exec, execLdVxK, h]
      exact ⟨_, rfl, .setReg (fun _ hr => ne_of_beq_false hr) ..⟩
    | none =>
      simp only [exec, execLdVxK, h]
      exact ⟨_, rfl, .counter _ rfl⟩
  | call nnn =>
    rcases push_cases s.pc s with ⟨_, h⟩ | ⟨_, h⟩
    · simp only [exec, execCall, h]
      exact ⟨_, rfl, .call nnn _ _ _ rfl⟩
    · simp only [exec, execCall, h, stackFailure_eq]
      exact ⟨_, rfl, .fault _⟩
  | ret ign =>
    rcases pop_cases s with ⟨_, h⟩ | ⟨_, h⟩
    · simp only [exec, execRet, h]
      exact ⟨_, rfl, .ret ign _ _ rfl⟩
    · simp only [exec, execRet, h, stackFailure_eq]
      exact ⟨_, rfl, .fault _⟩
  | cls => exact ⟨_, rfl, .display s.v _ _ rfl (fun _ _ => rfl) (listsChanges_litPixels s.fb)⟩
  | drw => exact HandlerEffect.guarded fun _ => .draw ..
  | ldDtVx x => exact ⟨_, rfl, .delay x rfl⟩
  | ldStVx x => exact ⟨_, rfl, .sound x rfl⟩
  | ldB => exact HandlerEffect.guarded fun hw => .store _ rfl hw
  | ldMemVx => exact HandlerEffect.guarded fun hw => .store _ (by rw [length_regsUpTo]; rfl) hw
  | ldVxMem x =>
    refine HandlerEffect.guarded fun _ => .registers _ fun r hr => ?_
    rw [reg_loadRegs, if_neg (of_decide_eq_false hr)]

theorem HandlerEffect.of_exec {i : Instr} {s t : State} (h : exec i s = .next t) : HandlerEffect i s t := by
  obtain ⟨u, hu, he⟩ := exec_effect i s
  cases hu.symm.trans h
  exact he

/-! ## What each field is written by -/

section
variable {i : Instr} {s t : State}

theorem HandlerEffect.reg_eq (h : HandlerEffect i s t) {r : Reg} (hr : writesReg i r = false) :
    t.reg r = s.reg r := by
  cases h with
  | registers v hv => exact hv r hr
  | display v fb l hi hv hl => exact hv r hr
  | random x kk b hi =>
    subst hi
    exact State.reg_setReg_ne s b (ne_of_beq_false hr)
  | _ => rfl

theorem HandlerEffect.i_eq (h : HandlerEffect i s t) (hi : writesI i = false) : t.i = s.i := by
  cases h with
  | index a ha => exact absurd ha (by simp [hi])
  | _ => rfl

theorem HandlerEffect.pc_eq (h : HandlerEffect i s t) (hi : writesPc i = false) : t.pc = s.pc := by
  cases h with
  | counter p hp => exact absurd hp (by simp [hi])
  | call nnn stack sp p hc => subst hc; cases hi
  | ret ign sp p hr => subst hr; cases hi
  | _ => rfl

theorem HandlerEffect.sp_eq_and_stack_eq (h : HandlerEffect i s t) (hi : writesStack i = false) :
    t.sp = s.sp ∧ t.stack = s.stack := by
  cases h with
  | call nnn stack sp p hc => subst hc; cases hi
  | ret ign sp p hr => subst hr; cases hi
  | _ => exact ⟨rfl, rfl⟩

theorem HandlerEffect.stack_eq_of_ret {a : Nibble} (h : HandlerEffect (.ret a) s t) : t.stack = s.stack := by
  cases h with
  | call nnn stack sp p hc => cases hc
  | _ => rfl

theorem HandlerEffect.fb_eq_and_dirty_eq (h : HandlerEffect i s t) (hi : writesDisplay i = false) :
    t.fb = s.fb ∧ t.dirty = s.dirty := by
  cases h with
  | display v fb l hd hv hl => exact absurd hd (by simp [hi])
  | _ => exact ⟨rfl, rfl⟩

theorem HandlerEffect.dt_eq (h : HandlerEffect i s t) (hi : ∀ x, i ≠ .ldDtVx x) : t.dt = s.dt := by
  cases h with
  | delay x hx => exact absurd hx (hi x)
  | _ => rfl

theorem HandlerEffect.st_eq (h : HandlerEffect i s t) (hi : ∀ x, i ≠ .ldStVx x) : t.st = s.st := by
  cases h with
  | sound x hx => exact absurd hx (hi x)
  | _ => rfl

theorem HandlerEffect.rndDraws_eq (h : HandlerEffect i s t) (hi : ∀ x kk, i ≠ .rnd x kk) :
    t.rndDraws = s.rndDraws := by
  cases h with
  | random x kk b hx => exact absurd hx (hi x kk)
  | _ => rfl

theorem HandlerEffect.acc_eq (h : HandlerEffect i s t) : t.acc = s.acc := by cases h <;> rfl

theorem HandlerEffect.key_eq (h : HandlerEffect i s t) : t.key = s.key := by cases h <;> rfl

theorem HandlerEffect.cur_eq (h : HandlerEffect i s t) : t.cur = s.cur := by cases h <;> rfl

theorem HandlerEffect.dtDraws_eq (h : HandlerEffect i s t) : t.dtDraws = s.dtDraws := by cases h <;> rfl

end

/-- Settles O43: of the effects, only those on registers write one, and they name it. -/
theorem registersFrame : Obligations.RegistersFrame :=
  fun _ _ _ _ h hr => (HandlerEffect.of_exec h).reg_eq hr

/-- Settles O44: the frames of I, pc, SP and the stack, read off the handler's effect. -/
theorem indexPcAndStackFrame : Obligations.IndexPcAndStackFrame := by
  intro i s t h
  have effect := HandlerEffect.of_exec h
  refine ⟨effect.i_eq, effect.pc_eq, effect.sp_eq_and_stack_eq, fun a ha => ?_⟩
  subst ha
  exact effect.stack_eq_of_ret

/-- Settles O45: of the effects, only the one on the display writes FB or DIRTY. -/
theorem displayFrame : Obligations.DisplayFrame :=
  fun _ _ _ h hi => (HandlerEffect.of_exec h).fb_eq_and_dirty_eq hi

/-- Settles O46: the frames of the timers, the keys and the hidden state, read off the handler's effect. -/
theorem timersKeysAndHiddenFrame : Obligations.TimersKeysAndHiddenFrame := by
  intro i s t h
  have effect := HandlerEffect.of_exec h
  exact ⟨effect.dt_eq, effect.st_eq, effect.acc_eq, effect.key_eq, effect.cur_eq, effect.dtDraws_eq,
    effect.rndDraws_eq⟩

end Sys2Proof.Machine
end

section
/-! PROOFS. The DirtySet and CUR over a whole step (10_state R30, R32; 44_display R210): every change of a pixel is
recorded once, and neither field is read. -/

namespace Sys2Proof.Machine

/-! ## What a cycle answers -/

/-- A cycle that answers a state rejected, or ran a handler to its end without a fault. -/
theorem cycle_next_cases {e : Rat} {s t : State} (h : cycle e s = .next t) :
    (∃ r, t = rejectCycle s r) ∨
    ∃ w u, exec (decode w) (s.advance w) = .next u ∧ t = completeCycle e u := by
  rcases cycle_cases e s with ⟨r, _, hc⟩ | ⟨_, _, hc⟩ | ⟨w, u, _, _, hu, hc⟩
  · cases hc.symm.trans h
  · cases hc.symm.trans h
    exact .inl ⟨_, rfl⟩
  · cases hc.symm.trans h
    cases hf : u.fault with
    | some r => exact .inl ⟨r, finishCycle_of_fault hf⟩
    | none => exact .inr ⟨w, u, hu, finishCycle_of_none hf⟩

theorem cycle_of_fetchWord_none (e : Rat) {s : State} (hf : s.fault = none) (hw : fetchWord s = none) :
    cycle e s = .next (rejectCycle s { code := .fetchOutOfRange, pc := s.pc, word := none }) := by
  simp only [cycle, hf, hw]

theorem cycle_of_exec (e : Rat) {s u : State} {w : Word} (hf : s.fault = none) (hw : fetchWord s = some w)
    (hu : exec (decode w) (s.advance w) = .next u) : cycle e s = .next (finishCycle e s u) := by
  simp only [cycle, hf, hw, runInstr, hu]

/-! ## Every change is recorded -/

/-- A handler appends to the DirtySet the list of the pixels it changed. -/
theorem HandlerEffect.dirty_eq_append {i : Instr} {s t : State} (h : HandlerEffect i s t) :
    ∃ l, t.dirty = s.dirty ++ l ∧ ListsChanges s.fb t.fb l := by
  cases h with
  | display v fb l hi hv hl => exact ⟨l, rfl, hl⟩
  | _ => exact ⟨[], (List.append_nil _).symm, .nil s.fb⟩

/-- Settles O38: a rejected cycle changes no pixel, and a completed one changes and records what its handler does. -/
theorem dirtySetRecordsExactlyTheChanges : Obligations.DirtySetRecordsExactlyTheChanges := by
  intro s t h
  rcases cycle_next_cases h with ⟨r, rfl⟩ | ⟨w, u, hu, rfl⟩
  · exact ⟨[], (List.append_nil _).symm, List.nodup_nil, (ListsChanges.nil s.fb).changed⟩
  · obtain ⟨l, hd, hl⟩ := (HandlerEffect.of_exec hu).dirty_eq_append
    exact ⟨l, hd, hl.nodup, hl.changed⟩

/-! ## The DirtySet is not read -/

/-- A guarded effect that appends `l` to the DirtySet appends it to any other, or raises its fault with either. -/
theorem guarded_appends {check : Option FaultCode} {s e t : State} {l : List Pixel}
    (h : guarded check s e = .next t) (he : e.dirty = s.dirty ++ l) : ∃ l', t.dirty = s.dirty ++ l' ∧
      ∀ d, guarded check { s with dirty := d } { e with dirty := d ++ l } = .next { t with dirty := d ++ l' } := by
  cases check with
  | none =>
    cases h
    exact ⟨l, he, fun _ => rfl⟩
  | some code =>
    cases h
    exact ⟨[], (List.append_nil _).symm, fun d => by rw [List.append_nil]; rfl⟩

theorem guarded_withDirty {check : Option FaultCode} {s e t : State} (h : guarded check s e = .next t)
    (d : List Pixel) :
    guarded check { s with dirty := d } { e with dirty := d } = .next { t with dirty := d } := by
  cases check <;> (cases h; rfl)

theorem skipOnKey_withDirty {x : Reg} {wanted : Bool} {s t : State} (h : skipOnKey x wanted s = .next t)
    (d : List Pixel) : skipOnKey x wanted { s with dirty := d } = .next { t with dirty := d } := by
  have sameReg : State.reg { s with dirty := d } x = s.reg x := rfl
  unfold skipOnKey at h ⊢
  rw [sameReg]
  cases hk : keyNumber (s.reg x) <;> (rw [hk] at h; cases h; rfl)

theorem push_withDirty (a : Word) (s : State) (d : List Pixel) :
    push a { s with dirty := d } = (push a s).map fun t => { t with dirty := d } := by
  unfold push
  split <;> rfl

theorem pop_withDirty (s : State) (d : List Pixel) :
    pop { s with dirty := d } = (pop s).map fun r => (r.1, { r.2 with dirty := d }) := by
  unfold pop
  split <;> rfl

/-- Plotting neither reads nor rewrites what is recorded already. -/
theorem Canvas.plotAll_withDirty (ps : List Pixel) : ∀ (c : Canvas) (d : List Pixel),
    Canvas.plotAll { c with dirty := d } ps = { c.plotAll ps with dirty := d ++ ps } := by
  induction ps with
  | nil => intro c d; simp
  | cons p ps ih =>
    intro c d
    rw [Canvas.plotAll_cons, Canvas.plotAll_cons, show d ++ p :: ps = d ++ [p] ++ ps by simp]
    exact ih (c.plot p) (d ++ [p])

/-- A handler that does not write the display carries the DirtySet along. -/
theorem exec_withDirty_of_not_writesDisplay {i : Instr} {s t : State} (h : exec i s = .next t)
    (hi : writesDisplay i = false) (d : List Pixel) :
    exec i { s with dirty := d } = .next { t with dirty := d } := by
  cases i with
  | cls | drw => cases hi
  | ldB | ldMemVx | ldVxMem => exact guarded_withDirty h d
  | skp | sknp => exact skipOnKey_withDirty h d
  | ldVxK x =>
    have sameKey : lowestKey { s with dirty := d } = lowestKey s := rfl
    simp only [exec, execLdVxK, sameKey] at h ⊢
    cases hk : lowestKey s <;> (rw [hk] at h; cases h; rfl)
  | call nnn =>
    simp only [exec, execCall, push_withDirty] at h ⊢
    cases hp : push s.pc s <;> (rw [hp] at h; cases h; rfl)
  | ret ign =>
    simp only [exec, execRet, pop_withDirty] at h ⊢
    cases hp : pop s <;> (rw [hp] at h; cases h; rfl)
  | _ => cases h; rfl

theorem drawSprite_withDirty (x y : Reg) (n : Nat) (s : State) (d : List Pixel) :
    drawSprite x y n { s with dirty := d } = { drawSprite x y n s with
      dirty := d ++ spritePixels (s.reg x) (s.reg y) 0 (s.mem.readBytes (indexAddress s) n) } :=
  Canvas.plotAll_withDirty _ { fb := s.fb, dirty := s.dirty, hit := false } d

/-- With another DirtySet a handler does the same and appends the same pixels. -/
theorem exec_withDirty {i : Instr} {s t : State} (h : exec i s = .next t) :
    ∃ l, t.dirty = s.dirty ++ l ∧ ∀ d, exec i { s with dirty := d } = .next { t with dirty := d ++ l } := by
  cases hi : writesDisplay i with
  | false =>
    refine ⟨[], ?_, fun d => ?_⟩
    · rw [List.append_nil, ((HandlerEffect.of_exec h).fb_eq_and_dirty_eq hi).2]
    · rw [List.append_nil]
      exact exec_withDirty_of_not_writesDisplay h hi d
  | true =>
    cases i with
    | cls ign =>
      cases h
      exact ⟨litPixels s.fb, rfl, fun _ => rfl⟩
    | drw x y n =>
      obtain ⟨l, hd, hl⟩ := guarded_appends h (Canvas.plotAll_dirty ..)
      refine ⟨l, hd, fun d => ?_⟩
      simp only [exec, execDrw, drawSprite_withDirty]
      exact hl d
    | _ => cases hi

/-- Settles O52: fetch and the end of a cycle do not look at the DirtySet, and the handler carries it along. -/
theorem dirtySetIsNeverRead : Obligations.DirtySetIsNeverRead := by
  intro s t d h
  rcases cycle_cases (nextElapsed s) s with ⟨r, _, hc⟩ | ⟨hf, hw, hc⟩ | ⟨w, u, hf, hw, hu, hc⟩
  · cases hc.symm.trans h
  · cases hc.symm.trans h
    refine ⟨[], (List.append_nil _).symm, ?_⟩
    rw [List.append_nil]
    exact cycle_of_fetchWord_none (s := { s with dirty := d }) _ hf hw
  · cases hc.symm.trans h
    obtain ⟨l, hd, hl⟩ := exec_withDirty hu
    have other := cycle_of_exec (nextElapsed s) (s := { s with dirty := d }) hf hw (hl d)
    cases hr : u.fault with
    | some r =>
      rw [finishCycle_of_fault hr]
      rw [finishCycle_of_fault (t := { u with dirty := d ++ l }) hr] at other
      exact ⟨[], (List.append_nil _).symm, by rw [List.append_nil]; exact other⟩
    | none =>
      rw [finishCycle_of_none hr]
      rw [finishCycle_of_none (t := { u with dirty := d ++ l }) hr] at other
      exact ⟨l, hd, other⟩

/-! ## CUR is not read -/

/-- Settles O53: the cycle writes CUR before the handler runs, so the handler's state is the same; a rejected cycle
puts the old CUR back. -/
theorem currentWordIsNeverRead : Obligations.CurrentWordIsNeverRead := by
  intro s t c h
  rcases cycle_cases (nextElapsed s) s with ⟨r, _, hc⟩ | ⟨hf, hw, hc⟩ | ⟨w, u, hf, hw, hu, hc⟩
  · cases hc.symm.trans h
  · cases hc.symm.trans h
    exact ⟨fun hn => (Option.some_ne_none _ hn).elim,
      fun _ => ⟨rfl, cycle_of_fetchWord_none (s := { s with cur := c }) _ hf hw⟩⟩
  · cases hc.symm.trans h
    have other := cycle_of_exec (nextElapsed s) (s := { s with cur := c }) hf hw hu
    cases hr : u.fault with
    | some r =>
      rw [finishCycle_of_fault hr] at other ⊢
      exact ⟨fun hn => (Option.some_ne_none _ hn).elim, fun _ => ⟨rfl, other⟩⟩
    | none =>
      rw [finishCycle_of_none hr] at other ⊢
      exact ⟨fun _ => other, fun hn => (hn hr).elim⟩

end Sys2Proof.Machine
end

section
/-! PROOFS. The invariant: memory in its canonical form, the reserved low region as reset left it, and ACC not
negative (10_state R27, 20_memory R60, R66, R67), at reset, over a step and over every host transaction. -/

namespace Sys2Proof.Machine

/-- The invariant is about memory and ACC alone. -/
theorem Inv.congr {s t : State} (h : Inv s) (hm : t.mem = s.mem) (ha : t.acc = s.acc) : Inv t where
  canonical := by rw [hm]; exact h.canonical
  lowRegion := by rw [hm]; exact h.lowRegion
  accNonneg := by rw [ha]; exact h.accNonneg

/-- Settles O48: at reset no byte differs from the reset contents, and ACC is 0. -/
theorem resetMeetsTheInvariant : Obligations.ResetMeetsTheInvariant where
  canonical := Mem.wf_nil
  lowRegion _ _ := rfl
  accNonneg := le_refl (0 : Rat)

/-- Bytes stored in range and above the reserved low region keep the invariant. -/
theorem Inv.writeBytes {s : State} (h : Inv s) {a : Nat} {bytes : List Byte} (lo : Config.programStart ≤ a)
    (hi : a + bytes.length ≤ Config.memSize) : Inv { s with mem := s.mem.writeBytes a bytes } where
  canonical := Mem.wf_writeBytes bytes h.canonical hi
  lowRegion b hb := (Mem.read_writeBytes_outside bytes s.mem a b (.inl (by omega))).trans (h.lowRegion b hb)
  accNonneg := h.accNonneg

/-! ## A step -/

/-- Every handler keeps the invariant: the only stores are the ones the range check has passed. -/
theorem HandlerEffect.inv {i : Instr} {s t : State} (h : HandlerEffect i s t) (hs : Inv s) : Inv t := by
  cases h with
  | store bytes hi hw =>
    obtain ⟨upper, lower⟩ := writeFault_eq_none.mp hw
    simp only [Config.programStart] at lower
    exact hs.writeBytes lower (by simp only [Config.memSize]; omega)
  | _ => exact hs.congr rfl rfl

/-- The timer check takes a tick's period from ACC only where it is there to take. -/
theorem Inv.completeCycle {s : State} (h : Inv s) {e : Rat} (he : 0 ≤ e) : Inv (completeCycle e s) where
  canonical := h.canonical
  lowRegion := h.lowRegion
  accNonneg := by
    rw [State.completeCycle_acc]
    split
    · rename_i hf
      exact sub_nonneg.mpr (of_decide_eq_true hf)
    · exact add_nonneg h.accNonneg he

theorem Inv.cycle {s t : State} (hs : Inv s) {e : Rat} (he : 0 ≤ e) (h : cycle e s = .next t) : Inv t := by
  rcases cycle_next_cases h with ⟨r, rfl⟩ | ⟨w, u, hu, rfl⟩
  · exact hs.congr rfl rfl
  · exact ((HandlerEffect.of_exec hu).inv (hs.congr rfl rfl)).completeCycle he

/-- Settles O49: the elapsed time of a step is a non-negative rational, whatever it is. -/
theorem stepKeepsTheInvariant : Obligations.StepKeepsTheInvariant :=
  fun s _ hs h => hs.cycle (NNRat.coe_nonneg (Config.elapsed s.dtDraws)) h

/-! ## A transaction -/

theorem Inv.resetOp (s : State) : Inv (resetOp s) := Inv.congr resetMeetsTheInvariant rfl rfl

theorem Inv.loadProgram {s : State} (h : Inv s) (bytes : List Byte) : Inv (loadProgram bytes s).2 := by
  unfold Machine.loadProgram
  split
  · rename_i hl
    simp only [maxProgram, Config.memSize, Config.programStart] at hl
    exact h.writeBytes (le_refl _) (by simp only [Config.memSize, Config.programStart]; omega)
  · exact h

theorem Inv.cycleOp {s t : State} {rep : HostReply} (hs : Inv s) {e : Rat} (he : 0 ≤ e)
    (h : cycleOp e s = .next (rep, t)) : Inv t := by
  unfold Machine.cycleOp at h
  split at h
  · rename_i u hu
    cases h
    exact hs.cycle he hu
  · cases h
    exact hs
  · cases h

/-- Settles O50: reset starts anew, a load stores in range, a cycle is `Inv.cycle`, and the other operations leave
memory and ACC alone. -/
theorem transactionsKeepTheInvariant : Obligations.TransactionsKeepTheInvariant := by
  intro op s t rep hs h
  cases op with
  | reset =>
    cases h
    exact .resetOp s
  | loadProgram bytes =>
    cases h
    exact hs.loadProgram bytes
  | cycle elapsed => exact hs.cycleOp (NNRat.coe_nonneg elapsed) h
  | setKey k pressed =>
    simp only [transact] at h
    split at h <;> cases h
    exact hs.congr rfl rfl
  | drainDirty =>
    cases h
    exact hs.congr rfl rfl
  | readPixel x y =>
    simp only [transact] at h
    split at h <;> cases h
    exact hs
  | toneActive | snapshot =>
    cases h
    exact hs

end Sys2Proof.Machine
end

section
/-! PROOFS. The state after reset, the host's ports and the boot sequence (10_state R40, R50 to R57; 70_reset_and_hazards
R280, R283). -/

namespace Sys2Proof.Machine

/-! ## The reset contents of memory -/

/-- FONT_BASE + 80 ≤ 0x200 (R62). -/
theorem fontBase_add_le : Config.fontBase + 80 ≤ 0x200 := by
  have := Config.fontBaseChoice.isLt
  unfold Config.fontBase
  omega

theorem length_fontGlyphs : Config.fontGlyphs.length = 80 := by decide

/-- The font stands at FONT_BASE. -/
theorem resetByte_font {k : Nat} (h : k < Config.fontGlyphs.length) :
    resetByte (Config.fontBase + k) = Config.fontGlyphs[k] := by
  have low : Config.fontBase + k < Config.programStart := by
    have := fontBase_add_le
    rw [length_fontGlyphs] at h
    simp only [Config.programStart]
    omega
  unfold resetByte
  rw [if_pos low, if_pos (Nat.le_add_right ..), Nat.add_sub_cancel_left, List.getD_eq_getElem _ _ h]

/-- Every byte outside the font is 0. -/
theorem resetByte_outside_font {a : Nat} (h : a < Config.fontBase ∨ Config.fontBase + 80 ≤ a) : resetByte a = 0 := by
  unfold resetByte
  split
  · rcases h with h | h
    · rw [if_neg (by omega)]
    · rw [if_pos (by omega), List.getD_eq_default _ _ (by rw [length_fontGlyphs]; omega)]
  · rfl

/-- The sixteen glyphs, five rows each (R63). -/
def glyphRows : List (List Byte) :=
  [[0xF0, 0x90, 0x90, 0x90, 0xF0], [0x20, 0x60, 0x20, 0x20, 0x70], [0xF0, 0x10, 0xF0, 0x80, 0xF0],
   [0xF0, 0x10, 0xF0, 0x10, 0xF0], [0x90, 0x90, 0xF0, 0x10, 0x10], [0xF0, 0x80, 0xF0, 0x10, 0xF0],
   [0xF0, 0x80, 0xF0, 0x90, 0xF0], [0xF0, 0x10, 0x20, 0x40, 0x40], [0xF0, 0x90, 0xF0, 0x90, 0xF0],
   [0xF0, 0x90, 0xF0, 0x10, 0xF0], [0xF0, 0x90, 0xF0, 0x90, 0x90], [0xE0, 0x90, 0xE0, 0x90, 0xE0],
   [0xF0, 0x80, 0x80, 0x80, 0xF0], [0xE0, 0x90, 0x90, 0x90, 0xE0], [0xF0, 0x80, 0xF0, 0x80, 0xF0],
   [0xF0, 0x80, 0xF0, 0x80, 0x80]]

/-- Lists of `n` elements each, joined, hold element `k` of list `d` at place `n * d + k`. -/
theorem getElem?_flatten_of_length_eq {α : Type} {n : Nat} (ls : List (List α)) :
    ∀ {d k : Nat} {l : List α} {b : α}, (∀ l ∈ ls, l.length = n) → ls[d]? = some l → l[k]? = some b →
      ls.flatten[n * d + k]? = some b := by
  induction ls with
  | nil => intro d k l b _ h; simp at h
  | cons x xs ih =>
    intro d k l b hn hl hb
    have hx : x.length = n := hn x List.mem_cons_self
    rw [List.flatten_cons]
    cases d with
    | zero =>
      cases hl
      rw [Nat.mul_zero, Nat.zero_add, List.getElem?_append_left (List.getElem?_eq_some_iff.mp hb).1]
      exact hb
    | succ d =>
      rw [List.getElem?_append_right (by rw [hx, Nat.mul_succ]; omega), hx,
        show n * (d + 1) + k - n = n * d + k by rw [Nat.mul_succ]; omega]
      exact ih (fun l h => hn l (List.mem_cons_of_mem _ h)) hl hb

/-- Row `k` of glyph `d` is byte `5 * d + k` of the font. -/
theorem getElem?_fontGlyphs_of_glyphRows {d k : Nat} {glyph : List Byte} {b : Byte}
    (hd : glyphRows[d]? = some glyph) (hk : glyph[k]? = some b) : Config.fontGlyphs[5 * d + k]? = some b :=
  getElem?_flatten_of_length_eq glyphRows (by decide) hd hk

/-! ## Reset -/

theorem resetMem_read (a : Nat) : State.reset.mem.read a = resetByte a := rfl

theorem reset_reg (r : Reg) : State.reset.reg r = 0 := Vector.getElem_replicate ..

/-- Settles O54: the fields by their reset values, memory by its reset contents. -/
theorem resetState : Obligations.ResetState := by
  refine ⟨reset_reg, rfl, rfl, rfl, fun j => Vector.getElem_replicate .., rfl, rfl, rfl, FrameBuffer.pixel_blank, rfl,
    fun k => Vector.getElem_replicate .., rfl, rfl, rfl, fontBase_add_le, fun d k glyph b hd hk => ?_,
    fun a => resetByte_outside_font⟩
  obtain ⟨hlt, hb⟩ := List.getElem?_eq_some_iff.mp (getElem?_fontGlyphs_of_glyphRows hd hk)
  rw [resetMem_read, Nat.add_assoc, resetByte_font hlt, hb]

/-- Settles O55: the port is `resetOp`. -/
theorem resetPort : Obligations.ResetPort := fun s => ⟨resetOp s, rfl, rfl⟩

/-! ## Loading -/

theorem loadProgram_of_le {bytes : List Byte} (h : bytes.length ≤ 3584) (s : State) :
    loadProgram bytes s = (.accepted, { s with mem := s.mem.writeBytes 0x200 bytes }) := if_pos h

theorem loadProgram_of_lt {bytes : List Byte} (h : 3584 < bytes.length) (s : State) :
    loadProgram bytes s = (.rejected, s) := if_neg (Nat.not_le_of_lt h)

/-- Settles O56: an accepted program is written from 0x200 by `Mem.writeBytes`, and only there. -/
theorem loadProgramPort : Obligations.LoadProgramPort := by
  intro bytes s
  refine ⟨fun h => ⟨{ s with mem := s.mem.writeBytes 0x200 bytes }, ?_, Mem.read_writeBytes_inside bytes s.mem 0x200,
    Mem.read_writeBytes_outside bytes s.mem 0x200, rfl⟩, fun h => ?_⟩
  · rw [transact, loadProgram_of_le h]
  · rw [transact, loadProgram_of_lt h]

/-- Settles O60: the load after reset writes memory from 0x200 alone, so every register keeps its reset value and the
font, which ends below 0x200, stands. -/
theorem bootLeavesAReadyMachine : Obligations.BootLeavesAReadyMachine := by
  intro bytes s h
  refine ⟨{ resetOp s with mem := Mem.writeBytes [] 0x200 bytes }, ?_, reset_reg, rfl, rfl, rfl, rfl, rfl, rfl,
    FrameBuffer.pixel_blank, Mem.read_writeBytes_inside bytes [] 0x200, fun k hk => ?_⟩
  · rw [boot, loadProgram_of_le h]
    rfl
  · have below : Config.fontBase + k < 0x200 := by have := fontBase_add_le; omega
    have hlt : k < Config.fontGlyphs.length := by rw [length_fontGlyphs]; exact hk
    rw [Mem.read_writeBytes_outside bytes [] 0x200 _ (.inl below), List.getElem?_eq_getElem hlt]
    exact congrArg some (resetByte_font hlt).symm

/-! ## Keys, the DirtySet and the reading ports -/

theorem keyDown_setKeyFlag (k j : Key) (pressed : Bool) (s : State) :
    (setKeyFlag k pressed s).keyDown j = if j = k then pressed else s.keyDown j := by
  unfold State.keyDown
  rw [State.setKeyFlag_key]
  by_cases h : j = k
  · subst h; simp
  · have : k.val ≠ j.val := fun e => h (Fin.ext e.symm)
    simp [h, this]

/-- Settles O57: a key number below 16 is a `Key`, and `setKeyFlag` writes its flag alone. -/
theorem keyAndDrainPorts : Obligations.KeyAndDrainPorts := by
  refine ⟨fun k pressed s => ⟨fun h => ⟨setKeyFlag ⟨k, h⟩ pressed s, dif_pos h, ?_, fun j hj => ?_, rfl⟩,
    fun h => dif_neg (Nat.not_lt_of_le h)⟩, fun _ => rfl⟩
  · rw [keyDown_setKeyFlag, if_pos rfl]
  · rw [keyDown_setKeyFlag, if_neg fun e => hj (congrArg Fin.val e)]

/-- Settles O58: on the grid `readPixel` answers the pixel and off it is refused; the tone's level is `0 < ST`; the
snapshot is a copy of the fields. -/
theorem readingPorts : Obligations.ReadingPorts := by
  refine ⟨fun x y s => ⟨fun hx hy => dif_pos ⟨hx, hy⟩, fun h => dif_neg ?_⟩,
    fun s => ⟨toneActive s, rfl, decide_eq_true_iff⟩,
    fun s => ⟨snapshot s, rfl, rfl, rfl, rfl, rfl, rfl, rfl, rfl, rfl, rfl, rfl⟩⟩
  omega

end Sys2Proof.Machine
end

section
/-! PROOFS. Memory as instructions store to it and as fetch reads it (20_memory R61, R64, R67, R70, R73), and the order
of a cycle's steps (40_cycle R122). -/

namespace Sys2Proof.Machine

/-! ## The frame of memory -/

/-- A handler leaves every byte outside the bytes it stores to. -/
theorem HandlerEffect.read_eq_of_not_stores {i : Instr} {s t : State} (h : HandlerEffect i s t) {a : Nat}
    (ha : ¬ Stores i s a) : t.mem.read a = s.mem.read a := by
  cases h with
  | store bytes hi hw =>
    simp only [Stores, hi] at ha
    exact Mem.read_writeBytes_outside bytes s.mem (indexAddress s) a (by omega)
  | _ => rfl

/-- No handler changes a byte of the reserved low region: the range check lets a store begin at 0x200 at the lowest. -/
theorem HandlerEffect.read_eq_of_low {i : Instr} {s t : State} (h : HandlerEffect i s t) {a : Nat}
    (ha : a < Config.programStart) : t.mem.read a = s.mem.read a := by
  cases h with
  | store bytes hi hw =>
    obtain ⟨_, lower⟩ := writeFault_eq_none.mp hw
    exact Mem.read_writeBytes_outside bytes s.mem (indexAddress s) a (.inl (Nat.lt_of_lt_of_le ha lower))
  | _ => rfl

/-- Settles O47: of the effects, only the store writes memory, and only where the instruction stores. -/
theorem memoryFrame : Obligations.MemoryFrame := by
  intro i s t a h ha
  have effect := HandlerEffect.of_exec h
  rcases ha with outside | low
  · exact effect.read_eq_of_not_stores outside
  · exact effect.read_eq_of_low low

/-! ## Fetch after a block store -/

/-- A block store in range and above the reserved low region writes V0 to Vx at I. -/
theorem exec_ldMemVx_of_inRange {x : Reg} {s : State} (lo : 0x200 ≤ s.i.toNat) (hi : s.i.toNat + x.val ≤ 0xFFF) :
    exec (.ldMemVx x) s = .next { s with mem := s.mem.writeBytes (indexAddress s) (regsUpTo x s) } := by
  have check : writeFault (indexAddress s) (regsUpTo x s).length = none := by
    rw [length_regsUpTo]
    exact writeFault_eq_none.mpr ⟨hi, lo⟩
  simp only [exec, execLdMemVx, storeAtIndex, check, guarded]

/-- A block store in range leaves the value of each stored register at its place from I. -/
theorem read_of_exec_ldMemVx {x : Reg} {s t : State} (lo : 0x200 ≤ s.i.toNat) (hi : s.i.toNat + x.val ≤ 0xFFF)
    (h : exec (.ldMemVx x) s = .next t) {r : Reg} (hr : r ≤ x) : t.mem.read (s.i.toNat + r.val) = s.reg r := by
  have hlt : r.val < (regsUpTo x s).length := by
    rw [length_regsUpTo]
    exact Nat.lt_succ_of_le hr
  cases (exec_ldMemVx_of_inRange lo hi).symm.trans h
  exact (Mem.read_writeBytes_inside _ s.mem _ r.val hlt).trans (getElem_regsUpTo x s r.val hlt)

/-- Settles O34: both bytes of the word are stored registers, and the word's end is inside the stored range. -/
theorem fetchSeesTheStore : Obligations.FetchSeesTheStore := by
  intro x s t u k hk lo hi h hmem hpc
  have stored {r : Reg} (hr : r ≤ x) : u.mem.read (s.i.toNat + r.val) = s.reg r := by
    rw [hmem]
    exact read_of_exec_ldMemVx lo hi h hr
  have first := stored (r := ⟨k, by omega⟩) (Nat.le_of_lt hk)
  have second := stored (r := ⟨k + 1, by omega⟩) hk
  rw [fetchWord_eq_some, hpc, Nat.add_assoc, first, second]
  exact ⟨by omega, rfl⟩

/-! ## The steps of a cycle -/

/-- Step 5 of the cycle in numbers: pc is p + 2 mod 2^16. -/
theorem State.advance_eq_ofNat (s : State) (w : Word) :
    s.advance w = { s with pc := BitVec.ofNat 16 ((s.pc.toNat + 2) % 2 ^ 16), cur := w } := by
  have next : s.pc + 2 = BitVec.ofNat 16 ((s.pc.toNat + 2) % 2 ^ 16) := by bv_omega
  rw [State.advance, next]

/-- Step 1 of the cycle: a recorded fault is answered. -/
theorem cycle_of_fault (e : Rat) {s : State} {r : FaultRecord} (h : s.fault = some r) :
    cycle e s = .fault (.latched r.code) := by
  simp only [cycle, h]

/-- Settles O11: one lemma for each way a cycle can go (`cycle_of_fault`, `cycle_of_fetchWord_none`, `cycle_of_exec`);
the handler answers a state, whose fault decides how the cycle finishes. -/
theorem cycleFollowsItsSteps : Obligations.CycleFollowsItsSteps := by
  intro e s
  refine ⟨fun r => cycle_of_fault e,
    fun hf hpc => cycle_of_fetchWord_none e hf (fetchWord_eq_none.mpr hpc), fun hf hpc w hw => ?_⟩
  obtain ⟨t, ht⟩ := exec_next (decode w) (s.advance w)
  have finish : cycle e s = .next (finishCycle e s t) := cycle_of_exec e hf (fetchWord_eq_some.mpr ⟨hpc, hw⟩) ht
  rw [State.advance_eq_ofNat] at ht
  refine ⟨t, ht, fun completes => ?_, fun r rejects => ?_⟩
  · rw [finish, finishCycle_of_none completes]
    rfl
  · rw [finish, finishCycle_of_fault rejects]
    rfl

end Sys2Proof.Machine
end

section
/-! PROOFS. The decoder and the encoder are inverse to each other (30_encoding R94 to R101), and the decoder is the
first match of the opcode table (R102). Each family's second selector and the words of the no-op handler are read off
from that. -/

namespace Sys2Proof

/-! ## Decoding an encoded instruction -/

/-- A word that no handler matches decodes to the no-op that holds it. -/
theorem decode_of_isUnmatchedWord {w : Word} (h : isUnmatchedWord w = true) : decode w = .nop w := by
  rcases (isUnmatchedWord_iff w).mp h with ⟨hf, hn⟩ | ⟨hf, hk⟩ | ⟨hf, hk⟩ <;> rw [decode_of_family hf]
  · simp [← BitVec.toNat_inj] at hn
    simp [decodeFamily8, hn]
  · simp only [List.mem_cons, List.not_mem_nil, or_false, not_or] at hk
    simp [decodeFamilyE, hk]
  · simp only [List.mem_cons, List.not_mem_nil, or_false, not_or] at hk
    simp [decodeFamilyF, hk]

/-- The word of a well-formed instruction decodes to it: its family and its second selector, if any, are read back from
the word, and so are its operands. -/
theorem decode_encode {i : Instr} (h : i.wellFormed = true) : decode (encode i) = i := by
  cases i with
  | cls | ret =>
    rw [encode, decode_of_family (fieldF_wordFXKK ..)]
    simp [decodeFamily0]
  | sys nnn =>
    simp only [Instr.wellFormed, isSysAddress, Bool.and_eq_true, bne_iff_ne] at h
    rw [encode, decode_of_family (fieldF_wordFNNN ..)]
    simp [decodeFamily0, h]
  | jp | call | ldI | jpV0 =>
    rw [encode, decode_of_family (fieldF_wordFNNN ..)]
    simp
  | seImm | sneImm | ldImm | addImm | rnd =>
    rw [encode, decode_of_family (fieldF_wordFXKK ..)]
    simp [regX]
  | seReg | sneReg | drw =>
    rw [encode, decode_of_family (fieldF_wordFXYN ..)]
    simp [regX, regY]
  | ldReg | orReg | andReg | xorReg | addReg | subReg | shr | subnReg | shl =>
    rw [encode, decode_of_family (fieldF_wordFXYN ..)]
    simp [decodeFamily8, regX, regY]
  | skp | sknp =>
    rw [encode, decode_of_family (fieldF_wordFXKK ..)]
    simp [decodeFamilyE, regX]
  | ldVxDt | ldVxK | ldDtVx | ldStVx | addI | ldF | ldB | ldMemVx | ldVxMem =>
    rw [encode, decode_of_family (fieldF_wordFXKK ..)]
    simp [decodeFamilyF, regX]
  | nop w => exact decode_of_isUnmatchedWord h

/-- Settles O1: `decode_encode`. -/
theorem decodeOfEncode : Obligations.DecodeOfEncode := fun _ => decode_encode

/-! ## Encoding a decoded word -/

/-- The instruction is well-formed and `w` is its word. -/
structure IsWordOf (w : Word) (i : Instr) : Prop where
  wellFormed : i.wellFormed = true
  encode_eq : encode i = w

section
variable {w : Word} {f : Nibble}

theorem wordFNNN_of_fields (hf : fieldF w = f) : wordFNNN f (fieldNNN w) = w := by
  rw [← hf, wordFNNN_fields]

theorem wordFXKK_of_fields {kk : Byte} (hf : fieldF w = f) (hk : fieldKK w = kk) :
    wordFXKK f (fieldX w) kk = w := by
  rw [← hf, ← hk, wordFXKK_fields]

theorem wordFXYN_of_fields {n : Nibble} (hf : fieldF w = f) (hn : fieldN w = n) :
    wordFXYN f (fieldX w) (fieldY w) n = w := by
  rw [← hf, ← hn, wordFXYN_fields]

theorem isWordOf_nop (h : isUnmatchedWord w = true) : IsWordOf w (.nop w) := ⟨h, rfl⟩

theorem isWordOf_decodeFamily0 (hf : fieldF w = 0x0#4) : IsWordOf w (decodeFamily0 w) := by
  unfold decodeFamily0
  split_ifs with cls ret
  · exact ⟨rfl, wordFXKK_of_fields hf cls⟩
  · exact ⟨rfl, wordFXKK_of_fields hf ret⟩
  · refine ⟨?_, wordFNNN_of_fields hf⟩
    simp [Instr.wellFormed, isSysAddress, cls, ret]

theorem isWordOf_decodeFamily8 (hf : fieldF w = 0x8#4) : IsWordOf w (decodeFamily8 w) := by
  unfold decodeFamily8
  split
  case h_10 =>
    refine isWordOf_nop ((isUnmatchedWord_iff w).mpr (.inl ⟨hf, ?_⟩))
    simp_all [← BitVec.toNat_inj]
  all_goals
    rename_i hn
    exact ⟨rfl, wordFXYN_of_fields hf (BitVec.toNat_eq_nat.mp hn).2⟩

theorem isWordOf_decodeFamilyE (hf : fieldF w = 0xE#4) : IsWordOf w (decodeFamilyE w) := by
  unfold decodeFamilyE
  split_ifs with skp sknp
  · exact ⟨rfl, wordFXKK_of_fields hf skp⟩
  · exact ⟨rfl, wordFXKK_of_fields hf sknp⟩
  · exact isWordOf_nop ((isUnmatchedWord_iff w).mpr (.inr (.inl ⟨hf, by simp [skp, sknp]⟩)))

theorem isWordOf_decodeFamilyF (hf : fieldF w = 0xF#4) : IsWordOf w (decodeFamilyF w) := by
  unfold decodeFamilyF
  split_ifs
  case neg => exact isWordOf_nop ((isUnmatchedWord_iff w).mpr (.inr (.inr ⟨hf, by simp [*]⟩)))
  all_goals
    rename_i hk
    exact ⟨rfl, wordFXKK_of_fields hf hk⟩

end

/-- Every word is the word of the well-formed instruction it decodes to, family by family: case `h_k` is `decode`'s arm
for family `k - 1`. -/
theorem isWordOf_decode (w : Word) : IsWordOf w (decode w) := by
  unfold decode
  split
  case h_16 =>
    simp only [imp_false] at *
    exact isWordOf_decodeFamilyF (by bv_omega)
  all_goals
    rename_i hf
    replace hf := (BitVec.toNat_eq_nat.mp hf).2
  case h_1 => exact isWordOf_decodeFamily0 hf
  case h_9 => exact isWordOf_decodeFamily8 hf
  case h_15 => exact isWordOf_decodeFamilyE hf
  case h_2 | h_3 | h_11 | h_12 => exact ⟨rfl, wordFNNN_of_fields hf⟩
  case h_4 | h_5 | h_7 | h_8 | h_13 => exact ⟨rfl, wordFXKK_of_fields hf rfl⟩
  case h_6 | h_10 | h_14 => exact ⟨rfl, wordFXYN_of_fields hf rfl⟩

/-- Settles O2: `isWordOf_decode`. -/
theorem encodeOfDecode : Obligations.EncodeOfDecode :=
  fun w => ⟨(isWordOf_decode w).wellFormed, (isWordOf_decode w).encode_eq⟩

/-- Exactly the words that no handler matches decode to a no-op, and it holds the word. -/
theorem decode_eq_nop_iff {w v : Word} : decode w = .nop v ↔ isUnmatchedWord w = true ∧ v = w := by
  refine ⟨fun h => ?_, ?_⟩
  · have word := isWordOf_decode w
    rw [h] at word
    obtain rfl : v = w := word.encode_eq
    exact ⟨word.wellFormed, rfl⟩
  · rintro ⟨h, rfl⟩
    exact decode_of_isUnmatchedWord h

/-! ## The opcode table (R102)

A row's bits under its mask are those of its pattern exactly if the fields that the mask keeps are the pattern's. -/

theorem and_F000_eq_iff {w p : Word} (hp : p &&& 0xF000#16 = p) : w &&& 0xF000#16 = p ↔ fieldF w = fieldF p := by
  rw [and_F000] at hp ⊢
  exact ⟨fun h => by rw [← h, fieldF_wordFNNN], fun h => by rw [h, hp]⟩

theorem and_F0FF_eq_iff {w p : Word} (hp : p &&& 0xF0FF#16 = p) :
    w &&& 0xF0FF#16 = p ↔ fieldF w = fieldF p ∧ fieldKK w = fieldKK p := by
  rw [and_F0FF] at hp ⊢
  refine ⟨fun h => ?_, fun ⟨hf, hk⟩ => by rw [hf, hk, hp]⟩
  rw [← h, fieldF_wordFXKK, fieldKK_wordFXKK]
  exact ⟨rfl, rfl⟩

theorem and_F00F_eq_iff {w p : Word} (hp : p &&& 0xF00F#16 = p) :
    w &&& 0xF00F#16 = p ↔ fieldF w = fieldF p ∧ fieldN w = fieldN p := by
  rw [and_F00F] at hp ⊢
  refine ⟨fun h => ?_, fun ⟨hf, hn⟩ => by rw [hf, hn, hp]⟩
  rw [← h, fieldF_wordFXYN, fieldN_wordFXYN]
  exact ⟨rfl, rfl⟩

section
variable (m : String) (w : Word) {p : Word}

@[simp] theorem selects_F000 (hp : p &&& 0xF000#16 = p) :
    TableRow.selects ⟨m, p, 0xF000#16⟩ w = decide (fieldF w = p.extractLsb' 12 4) :=
  decide_eq_decide.mpr (and_F000_eq_iff hp)

@[simp] theorem selects_F0FF (hp : p &&& 0xF0FF#16 = p) :
    TableRow.selects ⟨m, p, 0xF0FF#16⟩ w = decide (fieldF w = p.extractLsb' 12 4 ∧ fieldKK w = p.extractLsb' 0 8) :=
  decide_eq_decide.mpr (and_F0FF_eq_iff hp)

@[simp] theorem selects_F00F (hp : p &&& 0xF00F#16 = p) :
    TableRow.selects ⟨m, p, 0xF00F#16⟩ w = decide (fieldF w = p.extractLsb' 12 4 ∧ fieldN w = p.extractLsb' 0 4) :=
  decide_eq_decide.mpr (and_F00F_eq_iff hp)

@[simp] theorem selects_zero : TableRow.selects ⟨m, 0#16, 0#16⟩ w = true := decide_eq_true (BitVec.and_zero ..)

end

/-- A word that no handler matches selects the last row alone. -/
theorem selectRow_of_isUnmatchedWord {w : Word} (h : isUnmatchedWord w = true) :
    (selectRow w).map (·.mnemonic) = some (Instr.nop w).mnemonic := by
  rcases (isUnmatchedWord_iff w).mp h with ⟨hf, hs⟩ | ⟨hf, hs⟩ | ⟨hf, hs⟩
  all_goals
    simp only [List.mem_cons, List.not_mem_nil, or_false, not_or] at hs
    simp [selectRow, opcodeTable, tableLow, tableMiddle, tableHigh, Instr.mnemonic, hf, hs]

/-- The word of a well-formed instruction selects the instruction's row: with the word's fields known, every row before
it is seen not to match. -/
theorem selectRow_encode {i : Instr} (h : i.wellFormed = true) :
    (selectRow (encode i)).map (·.mnemonic) = some i.mnemonic := by
  cases i with
  | sys nnn =>
    simp only [Instr.wellFormed, isSysAddress, Bool.and_eq_true, bne_iff_ne] at h
    simp [selectRow, opcodeTable, tableLow, tableMiddle, tableHigh, encode, Instr.mnemonic, h]
  | nop w => exact selectRow_of_isUnmatchedWord h
  | _ => simp [selectRow, opcodeTable, tableLow, tableMiddle, tableHigh, encode, Instr.mnemonic]

/-- Settles O3: every word is the word of the instruction it decodes to, which selects the instruction's row. -/
theorem decoderFollowsOpcodeTable : Obligations.DecoderFollowsOpcodeTable := by
  intro w
  have word := isWordOf_decode w
  rw [← selectRow_encode word.wellFormed, word.encode_eq]

/-! ## The second selectors -/

/-- Settles O4: `decode_encode` of CLS, RET and SYS; a no-op word is in another family. -/
theorem familyZeroByLowByte : Obligations.FamilyZeroByLowByte := by
  refine ⟨fun a => ⟨decode_encode (i := .cls a) rfl, decode_encode (i := .ret a) rfl⟩,
    fun nnn => ⟨fun cls ret => ?_, fun w h => ?_⟩⟩
  · exact decode_encode (i := .sys nnn) (by simp [Instr.wellFormed, isSysAddress, cls, ret])
  · have unmatched := (decode_eq_nop_iff.mp h).1
    simp [isUnmatchedWord_iff] at unmatched

/-- The low nibbles of family 8 without a handler are the ones no handler has (R97). -/
theorem mem_unmatchedNibbles : ∀ n : Nibble, n ∈ [0x8#4, 0x9#4, 0xA#4, 0xB#4, 0xC#4, 0xD#4, 0xF#4] ↔
    n ∉ [0x0#4, 0x1#4, 0x2#4, 0x3#4, 0x4#4, 0x5#4, 0x6#4, 0x7#4, 0xE#4] := by
  decide

/-- Settles O5: `decode_encode` of the nine handlers; the other low nibbles make a word that no handler matches. -/
theorem familyEightByLowNibble : Obligations.FamilyEightByLowNibble := by
  intro x y
  refine ⟨decode_encode (i := .ldReg x y) rfl, decode_encode (i := .orReg x y) rfl,
    decode_encode (i := .andReg x y) rfl, decode_encode (i := .xorReg x y) rfl, decode_encode (i := .addReg x y) rfl,
    decode_encode (i := .subReg x y) rfl, decode_encode (i := .shr x y) rfl, decode_encode (i := .subnReg x y) rfl,
    decode_encode (i := .shl x y) rfl, fun n hn => decode_of_isUnmatchedWord ?_⟩
  rw [isUnmatchedWord_iff, fieldF_wordFXYN, fieldN_wordFXYN]
  exact .inl ⟨rfl, (mem_unmatchedNibbles n).mp hn⟩

/-- Settles O6: `decode_encode` of the eleven handlers; the other low bytes make a word that no handler matches. -/
theorem familiesEAndFByLowByte : Obligations.FamiliesEAndFByLowByte := by
  intro x
  refine ⟨decode_encode (i := .skp x) rfl, decode_encode (i := .sknp x) rfl,
    fun kk hk => decode_of_isUnmatchedWord ?_, decode_encode (i := .ldVxDt x) rfl, decode_encode (i := .ldVxK x) rfl,
    decode_encode (i := .ldDtVx x) rfl, decode_encode (i := .ldStVx x) rfl, decode_encode (i := .addI x) rfl,
    decode_encode (i := .ldF x) rfl, decode_encode (i := .ldB x) rfl, decode_encode (i := .ldMemVx x) rfl,
    decode_encode (i := .ldVxMem x) rfl, fun kk hk => decode_of_isUnmatchedWord ?_⟩
  all_goals rw [isUnmatchedWord_iff, fieldF_wordFXKK, fieldKK_wordFXKK]
  · exact .inr (.inl ⟨rfl, hk⟩)
  · exact .inr (.inr ⟨rfl, hk⟩)

/-- Settles O7: `decode_encode`; the handlers do not take the low nibble. -/
theorem familiesFiveAndNineIgnoreLowNibble : Obligations.FamiliesFiveAndNineIgnoreLowNibble :=
  fun x y n _ _ => ⟨decode_encode (i := .seReg x y n) rfl, decode_encode (i := .sneReg x y n) rfl, rfl, rfl⟩

/-- Settles O9: the words are closed, so the decoder is evaluated on them. -/
theorem sampleWordsDecode : Obligations.SampleWordsDecode := by
  unfold Obligations.SampleWordsDecode
  decide

/-! ## How many words the no-op handler has (R101) -/

/-- A predicate of period `a` counts over `m` periods `m` times what it counts over one. -/
theorem countP_range_mul_of_periodic {p : Nat → Bool} {a : Nat} (hp : Function.Periodic p a) (m : Nat) :
    (List.range (a * m)).countP p = m * (List.range a).countP p := by
  induction m with
  | zero => simp
  | succ m ih =>
    have shift : p ∘ (a + ·) = p := funext fun k => (congrArg p (Nat.add_comm a k)).trans (hp k)
    rw [Nat.mul_succ, Nat.add_comm, List.range_add, List.countP_append, List.countP_map, shift, ih, Nat.succ_mul,
      Nat.add_comm]

section
variable {n : Nat}

theorem periodic_ofNat : Function.Periodic (BitVec.ofNat n) (2 ^ n) := by
  intro k
  apply BitVec.eq_of_toNat_eq
  simp

variable {l : List (BitVec n)} (hl : l.Nodup)
include hl

/-- Of the `2 ^ n` bit vectors, the ones in a list without repeats are as many as the list is long. -/
theorem countP_range_ofNat_mem :
    (List.range (2 ^ n)).countP (fun k => decide (BitVec.ofNat n k ∈ l)) = l.length := by
  have numbers : ((List.range (2 ^ n)).filter fun k => decide (BitVec.ofNat n k ∈ l)).Perm (l.map BitVec.toNat) := by
    refine (List.perm_ext_iff_of_nodup (List.nodup_range.filter _)
      (hl.map fun _ _ => BitVec.eq_of_toNat_eq)).mpr fun k => ?_
    simp only [List.mem_filter, List.mem_range, decide_eq_true_eq, List.mem_map]
    refine ⟨fun ⟨hk, hm⟩ => ⟨_, hm, (BitVec.toNat_ofNat ..).trans (Nat.mod_eq_of_lt hk)⟩, ?_⟩
    rintro ⟨b, hb, rfl⟩
    exact ⟨b.isLt, by rwa [BitVec.ofNat_toNat, BitVec.setWidth_eq]⟩
  rw [List.countP_eq_length_filter, numbers.length_eq, List.length_map]

/-- A selector of `n` bits runs `m` times through its values; the ones outside the list are counted. -/
theorem countP_range_ofNat_notMem (m : Nat) :
    (List.range (2 ^ n * m)).countP (fun k => decide (BitVec.ofNat n k ∉ l)) = m * (2 ^ n - l.length) := by
  have both := List.length_eq_countP_add_countP (fun k => decide (BitVec.ofNat n k ∈ l)) (l := List.range (2 ^ n))
  rw [List.length_range, countP_range_ofNat_mem hl] at both
  simp only [decide_eq_true_eq] at both
  rw [countP_range_mul_of_periodic fun k => by rw [periodic_ofNat k], Nat.sub_eq_of_eq_add' both]

/-- The no-op words among the 4096 from `base` on, where a selector of `n` bits makes a no-op word unless it is in
`l`. -/
theorem countP_nop {base m : Nat} (size : 4096 = 2 ^ n * m)
    (h : ∀ k < 4096, isUnmatchedWord (BitVec.ofNat 16 (base + k)) = true ↔ BitVec.ofNat n k ∉ l) :
    (List.range 4096).countP (fun k => decode (BitVec.ofNat 16 (base + k)) == .nop (BitVec.ofNat 16 (base + k))) =
      m * (2 ^ n - l.length) := by
  rw [← countP_range_ofNat_notMem hl, ← size]
  refine List.countP_congr fun k hk => ?_
  rw [beq_iff_eq, decode_eq_nop_iff, and_iff_left rfl, h k (List.mem_range.mp hk), decide_eq_true_iff]

end

/-- The family of the `k`-th word of family `f`. -/
theorem fieldF_ofNat_add {k : Nat} (f : Nat) (h : k < 4096) :
    fieldF (BitVec.ofNat 16 (4096 * f + k)) = BitVec.ofNat 4 f := by
  apply BitVec.eq_of_toNat_eq
  simp [fieldF, Nat.shiftRight_eq_div_pow]
  omega

theorem fieldKK_ofNat_add (f k : Nat) : fieldKK (BitVec.ofNat 16 (4096 * f + k)) = BitVec.ofNat 8 k := by
  apply BitVec.eq_of_toNat_eq
  simp [fieldKK]
  omega

theorem fieldN_ofNat_add (f k : Nat) : fieldN (BitVec.ofNat 16 (4096 * f + k)) = BitVec.ofNat 4 k := by
  apply BitVec.eq_of_toNat_eq
  simp [fieldN]
  omega

/-- Settles O8: `decode_eq_nop_iff`; in each family the second selector runs through all its values, and those of the
family's handlers are taken off. -/
theorem unmatchedWordsAndTheirCounts : Obligations.UnmatchedWordsAndTheirCounts := by
  refine ⟨fun w => ?_, ?_, ?_, ?_⟩
  · rw [decode_eq_nop_iff, and_iff_left rfl, isUnmatchedWord_iff, mem_unmatchedNibbles]
    rfl
  · refine countP_nop (n := 4) (m := 256) (l := [0x0, 0x1, 0x2, 0x3, 0x4, 0x5, 0x6, 0x7, 0xE]) (by decide) rfl
      fun k hk => ?_
    rw [isUnmatchedWord_iff, fieldF_ofNat_add 0x8 hk, fieldN_ofNat_add 0x8]
    simp
  · refine countP_nop (n := 8) (m := 16) (l := [0x9E, 0xA1]) (by decide) rfl fun k hk => ?_
    rw [isUnmatchedWord_iff, fieldF_ofNat_add 0xE hk, fieldKK_ofNat_add 0xE]
    simp
  · refine countP_nop (n := 8) (m := 16) (l := [0x07, 0x0A, 0x15, 0x18, 0x1E, 0x29, 0x33, 0x55, 0x65]) (by decide) rfl
      fun k hk => ?_
    rw [isUnmatchedWord_iff, fieldF_ofNat_add 0xF hk, fieldKK_ofNat_add 0xF]
    simp

end Sys2Proof
end

section
/-! PROOFS. A skip seen over its whole cycle (41_control_flow R140), and that every core without a recorded fault steps
(40_cycle R127). -/

namespace Sys2Proof.Machine

/-- A fetched instruction whose handler skips on `taken` moves pc by one word, or by two: below the fetch limit neither
sum wraps. -/
theorem cycleSkipsWhen_of_exec {s : State} {i : Instr} {taken : Bool} (hf : s.fault = none)
    (hw : fetchWord s = some (encode i)) (hi : i.wellFormed = true)
    (hs : exec i (s.advance (encode i)) = .next ((s.advance (encode i)).skipIf taken)) : CycleSkipsWhen s taken := by
  intro e
  have inRange := (fetchWord_eq_some.mp hw).1
  have run := cycle_of_exec e hf hw (by rw [decode_encode hi]; exact hs)
  rw [finishCycle_of_none (by exact hf)] at run
  refine ⟨_, run, hf, ?_⟩
  cases taken <;> simp <;> bv_omega

/-- A skip on a key, where the register holds a key number, reads that key's level. -/
theorem skipOnKey_of_lt {x : Reg} {s : State} (h : (s.reg x).toNat < 16) (wanted : Bool) :
    skipOnKey x wanted s = .next (s.skipIf (s.key[(s.reg x).toNat] == wanted)) := by
  rcases skipOnKey_cases x wanted s with ⟨k, hk, hs⟩ | ⟨hge, _⟩
  · obtain rfl : k = ⟨_, h⟩ := Fin.ext hk.symm
    exact hs
  · omega

/-- Settles O21: each of the six handlers skips on its condition, and `cycleSkipsWhen_of_exec` is the cycle around
it. -/
theorem skipPassesExactlyOneWord : Obligations.SkipPassesExactlyOneWord := by
  intro x y kk n s hf
  refine ⟨fun hw => cycleSkipsWhen_of_exec (i := .seImm x kk) hf hw rfl rfl,
    fun hw => cycleSkipsWhen_of_exec (i := .sneImm x kk) hf hw rfl ?_,
    fun hw => cycleSkipsWhen_of_exec (i := .seReg x y n) hf hw rfl rfl,
    fun hw => cycleSkipsWhen_of_exec (i := .sneReg x y n) hf hw rfl ?_,
    fun h => ⟨fun hw => cycleSkipsWhen_of_exec (i := .skp x) hf hw rfl ?_,
      fun hw => cycleSkipsWhen_of_exec (i := .sknp x) hf hw rfl ?_⟩⟩
  · simp only [ne_eq, decide_not]
    rfl
  · simp only [ne_eq, decide_not]
    rfl
  · exact (skipOnKey_of_lt (s := s.advance _) h true).trans (by rw [beq_true]; rfl)
  · exact (skipOnKey_of_lt (s := s.advance _) h false).trans (by rw [beq_false]; rfl)

/-- Settles O12: of the ways a cycle can go, only a recorded fault answers no state, and none is a refusal. -/
theorem stepAnswersUnlessFaulted : Obligations.StepAnswersUnlessFaulted := by
  intro s
  rcases cycle_cases (nextElapsed s) s with ⟨r, hf, hc⟩ | ⟨_, _, hc⟩ | ⟨w, t, _, _, _, hc⟩
  · exact ⟨fun hn => absurd (hf.symm.trans hn) (Option.some_ne_none r), fun _ h => nomatch hc.symm.trans h⟩
  · exact ⟨fun _ => ⟨_, hc⟩, fun _ h => nomatch hc.symm.trans h⟩
  · exact ⟨fun _ => ⟨_, hc⟩, fun _ h => nomatch hc.symm.trans h⟩

end Sys2Proof.Machine
end

section
/-! PROOFS. Which faults a handler raises (60_exceptions R250), what a rejected cycle leaves (40_cycle R126), and the
cycle around the decoded instruction (40_cycle R122 to R125). -/

namespace Sys2Proof.Machine

/-! ## The faults of a handler -/

theorem readFault_eq_some {a n : Nat} {c : FaultCode} :
    readFault a n = some c ↔ c = .readOutOfRange ∧ 0 < n ∧ a + n - 1 > 0xFFF := by
  unfold readFault
  split
  · simp; omega
  · simp only [Option.some.injEq, eq_comm (a := c)]
    exact ⟨fun h => ⟨h, by omega⟩, And.left⟩

/-- The two conditions on a store exclude each other, as no instruction stores more than 16 bytes. -/
theorem writeFault_eq_some {a n : Nat} (hn : n ≤ 16) {c : FaultCode} : writeFault a n = some c ↔
    (c = .writeOutOfRange ∧ a + n - 1 > 0xFFF) ∨ (c = .reservedWrite ∧ a < 0x200) := by
  unfold writeFault
  rw [Config.programStart]
  split_ifs with upper lower
  · have aboveStart : ¬ a < 0x200 := by omega
    simp [upper, aboveStart, eq_comm]
  · simp [upper, lower, eq_comm]
  · simp [upper, lower]

/-- What a handler does to FAULT: it keeps it, no condition of R250 holding, or it raises the fault of one that holds
(R251). -/
inductive FaultEffect (i : Instr) (s : State) : State → Prop where
  | kept {t : State} (hn : ∀ c, ¬ Raises i s c) (ht : t.fault = s.fault) : FaultEffect i s t
  | raised {c : FaultCode} (hc : Raises i s c) : FaultEffect i s (s.recordFault c (s.pc - 2) (some s.cur))

/-- A guarded effect that keeps FAULT, where the check is the instruction's condition. -/
theorem FaultEffect.guarded {i : Instr} {s e : State} {check : Option FaultCode}
    (hc : ∀ c, check = some c ↔ Raises i s c) (he : e.fault = s.fault) :
    ∃ t, guarded check s e = .next t ∧ FaultEffect i s t := by
  rcases guarded_cases check s e with ⟨passed, h⟩ | ⟨code, failed, h⟩
  · refine ⟨e, h, .kept (fun c raises => ?_) he⟩
    rw [← hc, passed] at raises
    cases raises
  · exact ⟨_, h, .raised ((hc code).mp failed)⟩

theorem FaultEffect.skipOnKey {i : Instr} {x : Reg} {s : State}
    (hi : ∀ c, Raises i s c ↔ c = .keyIndexOutOfRange ∧ (s.reg x).toNat > 0xF) (wanted : Bool) :
    ∃ t, skipOnKey x wanted s = .next t ∧ FaultEffect i s t := by
  rcases skipOnKey_cases x wanted s with ⟨k, hk, h⟩ | ⟨hx, h⟩
  · refine ⟨_, h, .kept (fun c raises => ?_) rfl⟩
    have above := ((hi c).mp raises).2
    omega
  · exact ⟨_, h, .raised ((hi _).mpr ⟨rfl, hx⟩)⟩

/-- Every handler answers a state with one of the two effects on FAULT. -/
theorem exec_faultEffect (i : Instr) (s : State) : ∃ t, exec i s = .next t ∧ FaultEffect i s t := by
  cases i with
  | drw => exact FaultEffect.guarded (fun _ => readFault_eq_some) rfl
  | ldVxMem x =>
    refine FaultEffect.guarded (fun c => ?_) rfl
    rw [readFault_eq_some, and_iff_right x.val.succ_pos]
    rfl
  | ldB x =>
    refine FaultEffect.guarded (fun c => ?_) rfl
    rw [length_decimalDigits, writeFault_eq_some (by decide)]
    rfl
  | ldMemVx x =>
    refine FaultEffect.guarded (fun c => ?_) rfl
    rw [length_regsUpTo, writeFault_eq_some x.isLt]
    rfl
  | call =>
    rcases push_cases s.pc s with ⟨hlt, h⟩ | ⟨full, h⟩
    · simp only [exec, execCall, h]
      exact ⟨_, rfl, .kept (fun _ raises => Nat.ne_of_lt hlt raises.2) rfl⟩
    · simp only [exec, execCall, h, stackFailure_eq]
      exact ⟨_, rfl, .raised ⟨rfl, full⟩⟩
  | ret =>
    rcases pop_cases s with ⟨hlt, h⟩ | ⟨empty, h⟩
    · simp only [exec, execRet, h]
      exact ⟨_, rfl, .kept (fun _ raises => Nat.ne_of_gt hlt raises.2) rfl⟩
    · simp only [exec, execRet, h, stackFailure_eq]
      exact ⟨_, rfl, .raised ⟨rfl, empty⟩⟩
  | skp | sknp => exact FaultEffect.skipOnKey (fun _ => Iff.rfl) _
  | ldVxK =>
    cases h : lowestKey s <;> simp only [exec, execLdVxK, h] <;> exact ⟨_, rfl, .kept (fun _ => id) rfl⟩
  | _ => exact ⟨_, rfl, .kept (fun _ => id) rfl⟩

/-- The fetch fault is the cycle's own: no handler raises it. -/
theorem Raises.ne_fetchOutOfRange {i : Instr} {s : State} {c : FaultCode} (h : Raises i s c) :
    c ≠ .fetchOutOfRange := by
  rintro rfl
  cases i <;> simp [Raises] at h

/-- A handler run where no fault is recorded leaves a record of the address and the word of its instruction, and not of
a fetch fault. -/
theorem record_of_exec {i : Instr} {s t : State} {r : FaultRecord} (hf : s.fault = none) (h : exec i s = .next t)
    (hr : t.fault = some r) : r.code ≠ .fetchOutOfRange ∧ r.pc = s.pc - 2 ∧ r.word = some s.cur := by
  obtain ⟨u, hu, effect⟩ := exec_faultEffect i s
  cases hu.symm.trans h
  cases effect with
  | kept _ ht => cases hr.symm.trans (ht.trans hf)
  | raised hc =>
    cases hr
    exact ⟨hc.ne_fetchOutOfRange, rfl, rfl⟩

/-! ## A rejected cycle -/

/-- Settles O13: a fetch fault is rejected with no word; a handler's with `record_of_exec`, whose state's pc is p + 2; a
completed cycle has no record. -/
theorem rejectedCycleChangesOnlyFault : Obligations.RejectedCycleChangesOnlyFault := by
  intro e s t r h hr
  rcases cycle_cases e s with ⟨_, _, hc⟩ | ⟨_, hw, hc⟩ | ⟨w, u, hf, hw, hu, hc⟩
  · cases hc.symm.trans h
  · cases hc.symm.trans h
    cases hr
    exact ⟨rfl, rfl, rfl, hw.symm, iff_of_true rfl rfl⟩
  · cases hc.symm.trans h
    cases hfault : u.fault with
    | none =>
      rw [finishCycle_of_none hfault] at hr
      cases hfault.symm.trans hr
    | some record =>
      rw [finishCycle_of_fault hfault] at hr ⊢
      cases hr
      obtain ⟨code, pc, word⟩ := record_of_exec (s := s.advance w) hf hu hfault
      have address : r.pc = s.pc := pc.trans (BitVec.add_sub_cancel ..)
      exact ⟨rfl, address, address.symm, word.trans hw.symm, iff_of_false (by simp [word]) code⟩

/-! ## The decoded instruction in its cycle -/

/-- Settles O16: such a word decodes to a no-op or a SYS, which answers the state after step 5. -/
theorem noOpAndSysHaveNoEffect : Obligations.NoOpAndSysHaveNoEffect := by
  refine ⟨fun _ _ => rfl, fun _ _ => rfl, fun e s w hf hw hword => ?_⟩
  have unchanged : exec (decode w) (s.advance w) = .next (s.advance w) := by
    rcases hword with unmatched | ⟨nnn, sys, rfl⟩
    · rw [decode_of_isUnmatchedWord unmatched]
      rfl
    · rw [show decode (wordFNNN 0x0 nnn) = .sys nnn from decode_encode (i := .sys nnn) sys]
      rfl
  rw [cycle_of_exec e hf hw unchanged, finishCycle_of_none (t := s.advance w) hf]
  rfl

/-- Settles O10: the word at pc is the word of the instruction it decodes to, and its handler answers. -/
theorem stepRunsTheDecodedInstruction : Obligations.StepRunsTheDecodedInstruction := by
  intro s i hf hpc _ hi
  have hw := fetchWord_eq_some.mpr ⟨hpc, rfl⟩
  obtain rfl : decode _ = i := congrArg Prod.fst (Except.ok.inj hi)
  obtain ⟨t, ht⟩ := exec_next (decode _) (s.advance _)
  rw [(isWordOf_decode _).encode_eq]
  exact ⟨t, ht, cycle_of_exec _ hf hw ht⟩

end Sys2Proof.Machine
end

section
/-! PROOFS. Control flow: jumps, calls, returns and the comparing skips (41_control_flow R140 to R149). -/

namespace Sys2Proof.Machine

/-! ## A handler in its cycle -/

/-- A raised fault rejects the cycle: the record holds the address and the word of the instruction (R126, R251). -/
theorem runInstr_of_raiseFault {i : Instr} {w : Word} {s : State} {code : FaultCode}
    (h : exec i (s.advance w) = raiseFault code (s.advance w)) (e : Rat) :
    runInstr e i w s = .next { s with fault := some { code := code, pc := s.pc, word := some w } } := by
  have address : (s.advance w).pc - 2 = s.pc := BitVec.add_sub_cancel ..
  simp only [runInstr, h, raiseFault_eq, address]
  rfl

/-- The fetched instruction's handler leaves no fault, so the cycle completes from the state it answers. -/
theorem cycle_of_exec_of_none (e : Rat) {i : Instr} {s u : State} (hi : i.wellFormed = true) (hf : s.fault = none)
    (hw : fetchWord s = some (encode i)) (hu : exec i (s.advance (encode i)) = .next u) (hn : u.fault = none) :
    cycle e s = .next (completeCycle e u) := by
  rw [cycle_of_exec e hf hw (by rwa [decode_encode hi]), finishCycle_of_none hn]

/-! ## The handlers -/

@[simp] theorem toNat_zext16 (nnn : Addr12) : (zext16 nnn).toNat = nnn.toNat :=
  BitVec.toNat_setWidth_of_le (by decide)

/-- The sum of a 12-bit address and a byte stays below 2^16. -/
theorem toNat_zext16_add (nnn : Addr12) (b : Byte) :
    (zext16 nnn + b.setWidth 16).toNat = nnn.toNat + b.toNat := by
  have offset : (b.setWidth 16).toNat = b.toNat := BitVec.toNat_setWidth_of_le (by decide)
  rw [BitVec.toNat_add, toNat_zext16, offset, Nat.mod_eq_of_lt (by omega)]

theorem exec_ret_of_pos (a : Nibble) {s : State} (h : 0 < s.sp.val) : exec (.ret a) s =
    .next { s with sp := ⟨s.sp.val - 1, by omega⟩, pc := s.stack[s.sp.val - 1]'(by omega) } := by
  simp only [exec, execRet, pop, dif_pos h]

theorem exec_ret_of_empty (a : Nibble) {s : State} (h : s.sp.val = 0) :
    exec (.ret a) s = raiseFault .stackUnderflow s := by
  simp only [exec, execRet, pop, dif_neg (show ¬ 0 < s.sp.val by omega), stackFailure_eq]

theorem exec_call_of_lt (nnn : Addr12) {s : State} (h : s.sp.val < 16) : exec (.call nnn) s =
    .next { s with stack := s.stack.set s.sp.val s.pc, sp := ⟨s.sp.val + 1, by omega⟩, pc := zext16 nnn } := by
  simp only [exec, execCall, push, dif_pos h]

theorem exec_call_of_full (nnn : Addr12) {s : State} (h : s.sp.val = 16) :
    exec (.call nnn) s = raiseFault .stackOverflow s := by
  simp only [exec, execCall, push, dif_neg (show ¬ s.sp.val < 16 by omega), stackFailure_eq]

/-! ## The whole cycles of CALL and RET -/

theorem cycle_call_of_lt (e : Rat) {s : State} {nnn : Addr12} (hf : s.fault = none)
    (hw : fetchWord s = some (encode (.call nnn))) (h : s.sp.val < 16) :
    ∃ t, cycle e s = .next t ∧ t.pc = zext16 nnn ∧ t.sp.val = s.sp.val + 1 ∧
      t.stack = s.stack.set s.sp.val (s.pc + 2) ∧ t.mem = s.mem ∧ t.fault = none :=
  ⟨_, cycle_of_exec_of_none e rfl hf hw (exec_call_of_lt (s := s.advance _) nnn h) hf, rfl, rfl, rfl, rfl, hf⟩

theorem cycle_ret_of_succ (e : Rat) {s : State} {a : Nibble} {k : Nat} (hf : s.fault = none)
    (hw : fetchWord s = some (encode (.ret a))) (h : s.sp.val = k + 1) :
    ∃ u, cycle e s = .next u ∧ u.pc = s.stack[k] ∧ u.sp.val = k ∧ u.stack = s.stack ∧ u.fault = none := by
  have pos : 0 < s.sp.val := by omega
  refine ⟨_, cycle_of_exec_of_none e rfl hf hw (exec_ret_of_pos (s := s.advance _) a pos) hf, ?_, ?_, rfl, hf⟩
  · simp [h]
  · simp [h]

/-! ## Calls, returns, jumps and skips -/

/-- Settles O17: `exec_ret_of_pos` and `exec_ret_of_empty` are the two sides of the stack check. -/
theorem returnPopsIntoPc : Obligations.ReturnPopsIntoPc :=
  fun a _ => ⟨decode_encode (i := .ret a) rfl, fun h => ⟨_, exec_ret_of_pos a h, rfl, rfl, rfl⟩,
    fun _ h e _ => runInstr_of_raiseFault (exec_ret_of_empty a h) e⟩

/-- Settles O19: `exec_call_of_lt` and `exec_call_of_full` are the two sides of the stack check. -/
theorem callPushesAndJumps : Obligations.CallPushesAndJumps :=
  fun nnn _ => ⟨decode_encode (i := .call nnn) rfl,
    fun h => ⟨_, exec_call_of_lt nnn h, toNat_zext16 nnn, rfl, rfl, rfl⟩,
    fun _ h e _ => runInstr_of_raiseFault (exec_call_of_full nnn h) e⟩

/-- Settles O22: the CALL leaves memory as it was, so the RET is fetched at nnn, and it pops the entry that the CALL
pushed. -/
theorem callThenReturn : Obligations.CallThenReturn := by
  intro e1 e2 s nnn a hf hw hnnn hbytes h
  have next : (s.pc + 2).toNat = s.pc.toNat + 2 := by
    have inRange := (fetchWord_eq_some.mp hw).1
    bv_omega
  obtain ⟨t, called, tpc, tsp, tstack, tmem, tfault⟩ := cycle_call_of_lt e1 hf hw h
  have fetched : fetchWord t = some (encode (.ret a)) := by
    rw [fetchWord_eq_some, tpc, toNat_zext16, tmem]
    exact ⟨hnnn, hbytes.symm⟩
  have pushed : t.stack[s.sp.val] = s.pc + 2 := by simp [tstack]
  obtain ⟨u, returned, upc, usp, ustack, ufault⟩ := cycle_ret_of_succ e2 tfault fetched tsp
  exact ⟨t, u, called, by rw [tpc, toNat_zext16], returned, by rw [upc, pushed, next], Fin.ext usp,
    by simp [ustack, pushed], ufault⟩

/-- Settles O18: the handlers write pc alone, and `toNat_zext16_add` says that the sum with V0 does not wrap. -/
theorem jumpsSetPc : Obligations.JumpsSetPc :=
  fun nnn s => ⟨decode_encode (i := .jp nnn) rfl, decode_encode (i := .jpV0 nnn) rfl,
    ⟨_, rfl, toNat_zext16 nnn, rfl⟩, ⟨_, rfl, toNat_zext16_add nnn (s.reg 0), rfl⟩⟩

/-- Settles O20: each handler is `skipIf` on its comparison, which writes pc alone. -/
theorem skipsOnComparison : Obligations.SkipsOnComparison :=
  fun x y kk n _ => ⟨⟨decode_encode (i := .seImm x kk) rfl, decode_encode (i := .sneImm x kk) rfl,
    decode_encode (i := .seReg x y n) rfl, decode_encode (i := .sneReg x y n) rfl⟩,
    ⟨_, rfl, if_congr beq_iff_eq rfl rfl, rfl⟩, ⟨_, rfl, if_congr bne_iff_ne rfl rfl, rfl⟩,
    ⟨_, rfl, if_congr beq_iff_eq rfl rfl, rfl⟩, ⟨_, rfl, if_congr bne_iff_ne rfl rfl, rfl⟩⟩

end Sys2Proof.Machine
end

section
/-! PROOFS. Register arithmetic and logic (42_alu R160 to R173): loads, sums, differences, shifts and bitwise logic. -/

namespace Sys2Proof.Machine

/-! ## What a handler writes: a register, or a result and a flag -/

theorem onlyRegs_setReg (s : State) (x : Reg) (b : Byte) : OnlyRegs s (s.setReg x b) (· = x) :=
  ⟨rfl, fun _ hr => State.reg_setReg_ne s b hr⟩

/-- The flag is written last (R160), so a result written to VF itself is lost. -/
theorem writeResultAndFlag_next (x : Reg) (b : Byte) (f : Bool) (s : State) :
    ∃ t, writeResultAndFlag x b f s = .next t ∧ OnlyRegs s t (fun r => r = x ∨ r = VF) ∧
      (x ≠ VF → t.reg x = b) ∧ t.reg VF = flagByte f := by
  refine ⟨_, rfl, ⟨rfl, fun r hr => ?_⟩, fun hx => ?_, State.reg_setReg_same ..⟩
  · obtain ⟨hx, hflag⟩ := not_or.mp hr
    rw [State.reg_setReg_ne _ _ hflag, State.reg_setReg_ne _ _ hx]
  · rw [State.reg_setReg_ne _ _ hx, State.reg_setReg_same]

/-! ## Results and flags as numbers (R173) -/

theorem toNat_flagByte (f : Bool) : (flagByte f).toNat = f.toNat := by
  cases f <;> rfl

theorem toNat_flagByte_decide (p : Prop) [Decidable p] : (flagByte (decide p)).toNat = if p then 1 else 0 := by
  rw [toNat_flagByte, Bool.toNat, Bool.cond_decide]

theorem toNat_flagByte_shiftedOutRight (a : Byte) : (flagByte (shiftedOutRight a)).toNat = a.toNat % 2 := by
  rw [toNat_flagByte, shiftedOutRight, BitVec.getLsbD, Nat.toNat_testBit, pow_zero, Nat.div_one]

/-- Bit 7 is the highest of a byte, so nothing of the quotient is above it. -/
theorem toNat_flagByte_shiftedOutLeft (a : Byte) : (flagByte (shiftedOutLeft a)).toNat = a.toNat / 128 := by
  rw [toNat_flagByte, shiftedOutLeft, BitVec.getLsbD, Nat.toNat_testBit]
  exact Nat.mod_eq_of_lt (by omega)

/-- A byte difference is the difference of the numbers, reduced mod 256 where it is negative. -/
theorem toNat_sub_eq_emod (a b : Byte) : ((a - b).toNat : Int) = ((a.toNat : Int) - b.toNat) % 256 := by
  rw [BitVec.toNat_sub]
  omega

/-- A difference written with its flag: SUB and SUBN are this with the operands in either order. -/
theorem writeDifference_next (x : Reg) (a b : Byte) (s : State) :
    ∃ t, writeResultAndFlag x (a - b) (noBorrow a b) s = .next t ∧ OnlyRegs s t (fun r => r = x ∨ r = VF) ∧
      (x ≠ VF → ((t.reg x).toNat : Int) = ((a.toNat : Int) - b.toNat) % 256) ∧
      (t.reg VF).toNat = (if a.toNat > b.toNat then 1 else 0) := by
  obtain ⟨t, next, frame, result, flag⟩ := writeResultAndFlag_next x (a - b) (noBorrow a b) s
  exact ⟨t, next, frame, fun hx => by rw [result hx, toNat_sub_eq_emod],
    by rw [flag, noBorrow, toNat_flagByte_decide]⟩

/-! ## The instructions -/

/-- Settles O25: `writeResultAndFlag_next` with the sum and its carry. -/
theorem addRegistersAndCarry : Obligations.AddRegistersAndCarry := by
  intro x y s
  obtain ⟨t, next, frame, result, flag⟩ :=
    writeResultAndFlag_next x (s.reg x + s.reg y) (carry (s.reg x) (s.reg y)) s
  exact ⟨decode_encode (i := .addReg x y) rfl, t, next, frame, fun hx => by rw [result hx, BitVec.toNat_add],
    by rw [flag, carry, toNat_flagByte_decide]⟩

/-- Settles O26: both are `writeDifference_next`, with Vx as the minuend and with Vy. -/
theorem subtractAndStrictNoBorrow : Obligations.SubtractAndStrictNoBorrow :=
  fun x y s => ⟨decode_encode (i := .subReg x y) rfl, decode_encode (i := .subnReg x y) rfl,
    writeDifference_next x (s.reg x) (s.reg y) s, writeDifference_next x (s.reg y) (s.reg x) s⟩

/-- Settles O27: neither handler reads y, and a shift by one halves or doubles the number. -/
theorem shiftsOfVx : Obligations.ShiftsOfVx := by
  intro x y s
  refine ⟨decode_encode (i := .shr x y) rfl, decode_encode (i := .shl x y) rfl, fun _ => ⟨rfl, rfl⟩, ?_, ?_⟩
  · obtain ⟨t, next, frame, result, flag⟩ :=
      writeResultAndFlag_next x (s.reg x >>> 1) (shiftedOutRight (s.reg x)) s
    exact ⟨t, next, frame, fun hx => by rw [result hx, BitVec.toNat_ushiftRight, Nat.shiftRight_one],
      by rw [flag, toNat_flagByte_shiftedOutRight]⟩
  · obtain ⟨t, next, frame, result, flag⟩ :=
      writeResultAndFlag_next x (s.reg x <<< 1) (shiftedOutLeft (s.reg x)) s
    exact ⟨t, next, frame, fun hx => by rw [result hx, BitVec.toNat_shiftLeft, Nat.shiftLeft_eq, pow_one],
      by rw [flag, toNat_flagByte_shiftedOutLeft]⟩

/-- Settles O23: each handler is one `setReg` of Vx. -/
theorem loadAndAddImmediate : Obligations.LoadAndAddImmediate := by
  intro x y kk s
  have sum : ((s.setReg x (s.reg x + kk)).reg x).toNat = ((s.reg x).toNat + kk.toNat) % 256 := by
    rw [State.reg_setReg_same, BitVec.toNat_add]
  exact ⟨decode_encode (i := .ldImm x kk) rfl, decode_encode (i := .addImm x kk) rfl,
    decode_encode (i := .ldReg x y) rfl, ⟨_, rfl, State.reg_setReg_same .., onlyRegs_setReg ..⟩,
    ⟨_, rfl, sum, onlyRegs_setReg ..⟩, ⟨_, rfl, State.reg_setReg_same .., onlyRegs_setReg ..⟩⟩

/-- Settles O24: each handler is one `setReg` of Vx, with the operation that the library says bit by bit. -/
theorem bitwiseLogic : Obligations.BitwiseLogic :=
  fun x y s => ⟨decode_encode (i := .orReg x y) rfl, decode_encode (i := .andReg x y) rfl,
    decode_encode (i := .xorReg x y) rfl,
    ⟨_, rfl, onlyRegs_setReg .., fun _ => by rw [State.reg_setReg_same, BitVec.getLsbD_or]⟩,
    ⟨_, rfl, onlyRegs_setReg .., fun _ => by rw [State.reg_setReg_same, BitVec.getLsbD_and]⟩,
    ⟨_, rfl, onlyRegs_setReg .., fun _ => by rw [State.reg_setReg_same, BitVec.getLsbD_xor]⟩⟩

end Sys2Proof.Machine
end

section
/-! PROOFS. The index register and the memory transfers (43_index_memory R190 to R196): the new I, what a transfer reads
or stores in range, and the rejected cycle out of range. -/

namespace Sys2Proof.Machine

/-! ## A condition of R250 rejects the cycle -/

/-- No two conditions hold at once: a store past the end of memory does not begin below 0x200. -/
theorem Raises.unique {i : Instr} {s : State} {c d : FaultCode} (hc : Raises i s c) (hd : Raises i s d) : c = d := by
  cases i with
  | drw | ldVxMem | call | ret | skp | sknp => exact hc.1.trans hd.1.symm
  | ldB | ldMemVx =>
    rcases hc with ⟨rfl, upper⟩ | ⟨rfl, lower⟩ <;> rcases hd with ⟨rfl, upper'⟩ | ⟨rfl, lower'⟩
    · rfl
    · omega
    · omega
    · rfl
  | _ => exact hc.elim

/-- The handler raises the fault whose condition holds. -/
theorem exec_of_raises {i : Instr} {s : State} {c : FaultCode} (h : Raises i s c) : exec i s = raiseFault c s := by
  obtain ⟨t, ht, effect⟩ := exec_faultEffect i s
  cases effect with
  | kept none_raised => exact absurd h (none_raised c)
  | raised hd => rw [ht, h.unique hd, raiseFault_eq]

/-- The condition is read from the state after step 5, and the record is of the instruction itself (R126, R251). -/
theorem runInstr_of_raises {i : Instr} {w : Word} {s : State} {c : FaultCode} (h : Raises i (s.advance w) c) (e : Rat) :
    runInstr e i w s = .next { s with fault := some { code := c, pc := s.pc, word := some w } } :=
  runInstr_of_raiseFault (exec_of_raises h) e

/-! ## The transfers in range -/

theorem guarded_of_none {check : Option FaultCode} (h : check = none) (s e : State) : guarded check s e = .next e := by
  rw [h, guarded]

theorem exec_ldB_of_inRange (x : Reg) {s : State} (lo : 0x200 ≤ s.i.toNat) (hi : s.i.toNat + 2 ≤ 0xFFF) :
    exec (.ldB x) s = .next { s with mem := s.mem.writeBytes (indexAddress s) (decimalDigits (s.reg x)) } :=
  guarded_of_none (writeFault_eq_none.mpr ⟨hi, lo⟩) ..

theorem exec_ldVxMem_of_inRange {x : Reg} {s : State} (hi : s.i.toNat + x.val ≤ 0xFFF) :
    exec (.ldVxMem x) s = .next { s with v := loadRegs x (indexAddress s) s } :=
  guarded_of_none (readFault_eq_none.mpr (.inr hi)) ..

/-- A handler that stores n + 1 bytes at I leaves every byte before I and after I + n. -/
theorem HandlerEffect.read_eq_outside {i : Instr} {s t : State} {n : Nat} (h : HandlerEffect i s t)
    (hi : storedRange i s = (s.i.toNat, n + 1)) {a : Nat} (ha : a < s.i.toNat ∨ s.i.toNat + n < a) :
    t.mem.read a = s.mem.read a := by
  refine h.read_eq_of_not_stores ?_
  simp only [Stores, hi]
  omega

/-- Each of the three digits of a byte fits in a byte. -/
theorem map_toNat_decimalDigits (b : Byte) :
    (decimalDigits b).map BitVec.toNat = [b.toNat / 100, b.toNat / 10 % 10, b.toNat % 10] := by
  have fits {n : Nat} (h : n < 256) : (BitVec.ofNat 8 n).toNat = n := Nat.mod_eq_of_lt h
  simp only [decimalDigits, List.map_cons, List.map_nil]
  rw [fits (by omega), fits (by omega), fits (by omega)]

/-- Digits stored at an address are read back as numbers, the hundreds first. -/
theorem toNat_read_writeBytes_decimalDigits (m : Mem) (a : Nat) (b : Byte) {k : Nat} (hk : k < 3) :
    ((m.writeBytes a (decimalDigits b)).read (a + k)).toNat =
      [b.toNat / 100, b.toNat / 10 % 10, b.toNat % 10][k] := by
  have inside : k < (decimalDigits b).length := by rwa [length_decimalDigits]
  rw [Mem.read_writeBytes_inside _ m a k inside]
  simp only [← map_toNat_decimalDigits, List.getElem_map]

/-! ## The instructions -/

/-- Settles O31: the digits are read back from the three bytes stored, `read_eq_outside` is the frame, and the two
conditions of `Raises` are the two rejected cycles. -/
theorem storeDecimalDigits : Obligations.StoreDecimalDigits := by
  refine fun x s => ⟨decode_encode (i := .ldB x) rfl, fun lo hi => ?_, fun e w _ => ⟨fun h => ?_, fun h => ?_⟩⟩
  · have run := exec_ldB_of_inRange x lo hi
    have digit {k : Nat} (hk : k < 3) := toNat_read_writeBytes_decimalDigits s.mem s.i.toNat (s.reg x) hk
    exact ⟨_, run, digit (k := 0) (by decide), digit (k := 1) (by decide), digit (k := 2) (by decide),
      fun a ha => (HandlerEffect.of_exec run).read_eq_outside rfl ha, rfl⟩
  · exact runInstr_of_raises (i := .ldB x) (.inl ⟨rfl, h⟩) e
  · exact runInstr_of_raises (i := .ldB x) (.inr ⟨rfl, h⟩) e

/-- Settles O32: `read_of_exec_ldMemVx` reads the registers back, `read_eq_outside` is the frame, and the two
conditions of `Raises` are the two rejected cycles. -/
theorem blockStore : Obligations.BlockStore := by
  refine fun x s => ⟨decode_encode (i := .ldMemVx x) rfl, fun lo hi => ?_, fun e w _ => ⟨fun h => ?_, fun h => ?_⟩⟩
  · have run := exec_ldMemVx_of_inRange lo hi
    exact ⟨_, run, fun r hr => read_of_exec_ldMemVx lo hi run hr,
      fun a ha => (HandlerEffect.of_exec run).read_eq_outside rfl ha, rfl⟩
  · exact runInstr_of_raises (i := .ldMemVx x) (.inl ⟨rfl, h⟩) e
  · exact runInstr_of_raises (i := .ldMemVx x) (.inr ⟨rfl, h⟩) e

/-- Settles O33: `reg_loadRegs` says of every register whether it is loaded, and `Raises` is the rejected cycle. -/
theorem blockLoad : Obligations.BlockLoad := by
  refine fun x s => ⟨decode_encode (i := .ldVxMem x) rfl, fun hi => ?_, fun e w _ h => ?_⟩
  · exact ⟨_, exec_ldVxMem_of_inRange hi, fun r hr => (reg_loadRegs ..).trans (if_pos hr),
      rfl, fun r hr => (reg_loadRegs ..).trans (if_neg hr)⟩
  · exact runInstr_of_raises (i := .ldVxMem x) ⟨rfl, h⟩ e

/-- Settles O29: I is the zero-extended nnn, or a 16-bit sum. -/
theorem loadAndAddIndex : Obligations.LoadAndAddIndex := by
  intro x nnn s
  have sum : (s.i + (s.reg x).setWidth 16).toNat = (s.i.toNat + (s.reg x).toNat) % 2 ^ 16 := by
    rw [BitVec.toNat_add, BitVec.toNat_setWidth_of_le (by decide)]
  exact ⟨decode_encode (i := .ldI nnn) rfl, decode_encode (i := .addI x) rfl,
    ⟨_, rfl, toNat_zext16 nnn, rfl⟩, ⟨_, rfl, sum, rfl⟩⟩

/-- Settles O30: FONT_BASE is below 0x200 (`fontBase_add_le`) and Vx is a byte, so the sum does not wrap. -/
theorem indexToGlyph : Obligations.IndexToGlyph := by
  intro x s
  have noWrap : Config.fontBase + (s.reg x).toNat * 5 < 2 ^ 16 := by
    have base := fontBase_add_le
    omega
  exact ⟨decode_encode (i := .ldF x) rfl, _, rfl, Nat.mod_eq_of_lt noWrap, rfl⟩

end Sys2Proof.Machine
end

section
/-! PROOFS. The display (44_display R210 to R214): the order of a clear's list, the pixels a sprite draws, and what a
draw and a second draw leave. -/

namespace Sys2Proof.Machine

/-! ## CLS -/

/-- The lit pixels come row by row and within a row from the left (R211). -/
theorem pairwise_litPixels (fb : FrameBuffer) :
    (litPixels fb).Pairwise fun p q => p.2 < q.2 ∨ (p.2 = q.2 ∧ p.1 < q.1) := by
  have place {x : Fin 64} {y : Fin 32} {p : Pixel}
      (h : (if FrameBuffer.pixel fb (x, y) then some (x, y) else none) = some p) : (x, y) = p :=
    Option.some.inj (Option.ite_none_right_eq_some.mp h).2
  unfold litPixels
  refine List.pairwise_flatMap.mpr ⟨fun y _ => ?_, (List.pairwise_lt_finRange 32).imp ?_⟩
  · refine List.pairwise_filterMap.mpr ((List.pairwise_lt_finRange 64).imp fun hlt p hp q hq => ?_)
    cases place hp
    cases place hq
    exact .inr ⟨rfl, hlt⟩
  · intro y z hlt p hp q hq
    obtain ⟨_, _, hp⟩ := List.mem_filterMap.mp hp
    obtain ⟨_, _, hq⟩ := List.mem_filterMap.mp hq
    cases place hp
    cases place hq
    exact .inl hlt

/-- Settles O35: the list is `litPixels`, whose members are the lit pixels, in the order of `pairwise_litPixels`. -/
theorem clearDisplay : Obligations.ClearDisplay :=
  fun a s => ⟨decode_encode (i := .cls a) rfl, _, litPixels s.fb, rfl, FrameBuffer.pixel_blank, rfl,
    fun _ => mem_litPixels, pairwise_litPixels s.fb, rfl⟩

/-! ## The pixels of a draw -/

/-- The pixels that a draw of n rows at (V[x], V[y]) from I plots, in order (R212): the list of `drawSprite`. -/
def drawnPixels (x y : Reg) (n : Nat) (s : State) : List Pixel :=
  spritePixels (s.reg x) (s.reg y) 0 (s.mem.readBytes (indexAddress s) n)

theorem drawSprite_eq (x y : Reg) (n : Nat) (s : State) :
    drawSprite x y n s = Canvas.plotAll { fb := s.fb, dirty := s.dirty, hit := false } (drawnPixels x y n s) := rfl

/-- A sprite of rows `row 0`, `row 1`, ... is its rows' pixels, joined. -/
theorem spritePixels_map_range (bx ry : Byte) (n : Nat) : ∀ (r : Nat) (row : Nat → Byte),
    spritePixels bx ry r ((List.range n).map row) =
      (List.range n).flatMap fun k => rowPixels bx ry (r + k) (row k) := by
  induction n with
  | zero => intros; rfl
  | succ n ih =>
    intro r row
    rw [List.range_succ_eq_map, List.map_cons, List.map_map, List.flatMap_cons, List.flatMap_map, spritePixels, ih]
    simp only [Nat.add_zero, Function.comp_apply, Nat.succ_eq_add_one, Nat.add_assoc, Nat.add_comm 1]

theorem drawnPixels_eq_flatMap (x y : Reg) (n : Nat) (s : State) : drawnPixels x y n s =
    (List.range n).flatMap fun r => rowPixels (s.reg x) (s.reg y) r (s.mem.read (s.i.toNat + r)) := by
  unfold drawnPixels Mem.readBytes
  rw [spritePixels_map_range]
  simp only [Nat.zero_add, indexAddress]

/-- A DRW has at most 15 rows, so it visits no pixel twice. -/
theorem nodup_drawnPixels (x y : Reg) (n : Nibble) (s : State) : (drawnPixels x y n.toNat s).Nodup := by
  refine nodup_spritePixels _ _ _ 0 ?_
  rw [Mem.readBytes, List.length_map, List.length_range]
  omega

/-- A draw reads its two coordinates, I and memory. -/
theorem drawnPixels_congr {x y : Reg} {s t : State} (hx : t.reg x = s.reg x) (hy : t.reg y = s.reg y)
    (hi : t.i = s.i) (hm : t.mem = s.mem) (n : Nat) : drawnPixels x y n t = drawnPixels x y n s := by
  unfold drawnPixels indexAddress
  rw [hx, hy, hi, hm]

/-! ## What a draw leaves -/

/-- `t` is `s` with the pixels of `l` inverted and recorded, and the collision in VF (R212). -/
structure Draws (l : List Pixel) (s t : State) : Prop where
  dirty : t.dirty = s.dirty ++ l
  pixel : ∀ p, FrameBuffer.pixel t.fb p = (FrameBuffer.pixel s.fb p ^^ decide (p ∈ l))
  flag : t.reg VF = flagByte (l.any (FrameBuffer.pixel s.fb))
  regs : ∀ r, r ≠ VF → t.reg r = s.reg r
  rest : t = { s with v := t.v, fb := t.fb, dirty := t.dirty }

/-- A DRW whose rows are all readable draws its pixels. -/
theorem exec_drw_of_inRange (x y : Reg) {n : Nibble} {s : State} (h : n = 0 ∨ s.i.toNat + n.toNat - 1 ≤ 0xFFF) :
    ∃ t, exec (.drw x y n) s = .next t ∧ Draws (drawnPixels x y n.toNat s) s t := by
  have readable : readFault (indexAddress s) n.toNat = none :=
    readFault_eq_none.mpr (h.imp (congrArg BitVec.toNat) id)
  have nodup := nodup_drawnPixels x y n s
  refine ⟨_, guarded_of_none readable .., ?_, ?_, ?_, ?_, rfl⟩
  · exact Canvas.plotAll_dirty ..
  · exact Canvas.plotAll_pixel nodup _
  · rw [State.reg_setReg_same, drawSprite_eq, Canvas.plotAll_hit nodup, Bool.false_or]
  · exact fun _ hr => State.reg_setReg_ne _ _ hr

section
variable {l : List Pixel} {s t : State}

theorem Draws.flag_of_on (h : Draws l s t) (on : ∃ p ∈ l, FrameBuffer.pixel s.fb p = true) : t.reg VF = 1 := by
  rw [h.flag, List.any_eq_true.mpr on]
  rfl

theorem Draws.flag_of_off (h : Draws l s t) (off : ∀ p ∈ l, FrameBuffer.pixel s.fb p = false) : t.reg VF = 0 := by
  rw [h.flag, List.any_eq_false.mpr fun p hp => Bool.eq_false_iff.mp (off p hp)]
  rfl

theorem Draws.i_eq (h : Draws l s t) : t.i = s.i := by rw [h.rest]

theorem Draws.mem_eq (h : Draws l s t) : t.mem = s.mem := by rw [h.rest]

/-- Inverting the same pixels again, from a state with the same frame buffer, restores them. -/
theorem Draws.fb_restored {t' u : State} (second : Draws l t' u) (first : Draws l s t) (same : t'.fb = t.fb) :
    u.fb = s.fb := by
  refine FrameBuffer.ext_pixel fun p => ?_
  rw [second.pixel, same, first.pixel, Bool.xor_assoc, Bool.xor_self, Bool.xor_false]

end

/-! ## DRW -/

/-- Settles O36 (the plain name `drawSprite` is the model's): `Draws` is the effect in range, its list written out by
`drawnPixels_eq_flatMap`; out of range the condition of `Raises` rejects the cycle. -/
theorem drawSprite_spec : Obligations.DrawSprite := by
  refine fun x y n s => ⟨decode_encode (i := .drw x y n) rfl, fun h => ?_, fun e w _ hn h => ?_⟩
  · obtain ⟨t, run, draws⟩ := exec_drw_of_inRange x y h
    exact ⟨t, _, run, drawnPixels_eq_flatMap x y n.toNat s, draws.dirty, draws.pixel, draws.flag_of_on,
      draws.flag_of_off, draws.regs, draws.rest⟩
  · have rows : 0 < n.toNat := Nat.pos_of_ne_zero fun hz => hn (BitVec.eq_of_toNat_eq hz)
    exact runInstr_of_raises (i := .drw x y n) ⟨rfl, rows, h⟩ e

/-- Settles O37: neither coordinate is VF and the end of the cycle leaves I and memory, so the second draw has the
pixels of the first (`drawnPixels_congr`), all of which the first has put on if they were off. -/
theorem drawingTwiceRestores : Obligations.DrawingTwiceRestores := by
  intro x y n s e w hx hy h
  obtain ⟨t, run, first⟩ := exec_drw_of_inRange x y h
  have again : n = 0 ∨ ((completeCycle e t).advance w).i.toNat + n.toNat - 1 ≤ 0xFFF := by
    rw [State.advance_i, State.completeCycle_i, first.i_eq]
    exact h
  have samePixels : drawnPixels x y n.toNat ((completeCycle e t).advance w) = drawnPixels x y n.toNat s :=
    drawnPixels_congr (first.regs x hx) (first.regs y hy) first.i_eq first.mem_eq _
  obtain ⟨u, rerun, second⟩ := exec_drw_of_inRange x y again
  rw [samePixels] at second
  refine ⟨t, u, run, rerun, second.fb_restored first rfl, fun off drawn => ?_⟩
  rw [first.dirty, List.drop_left] at off
  obtain ⟨p, hp⟩ := List.exists_mem_of_ne_nil (drawnPixels x y n.toNat s) fun hnil =>
    drawn (by rw [first.dirty, hnil, List.append_nil])
  have on : FrameBuffer.pixel t.fb p = true := by
    rw [first.pixel, off p hp, decide_eq_true hp, Bool.false_xor]
  exact ⟨first.flag_of_off off, second.flag_of_on ⟨p, hp, on⟩⟩

end Sys2Proof.Machine
end

section
/-! PROOFS. Keys and timer transfers (45_input_timers R230 to R236): the skips on a key's level, the key wait, and the
timer instructions alone and in a cycle that ticks (60_exceptions R260). -/

namespace Sys2Proof.Machine

/-! ## The skips on a key's level -/

/-- Settles O39 (the plain name `skipOnKey` is the model's): `skipOnKey_of_lt` is both skips where Vx is a key number,
and above it the condition of `Raises` is the rejected cycle. -/
theorem skipOnKey_spec : Obligations.SkipOnKey := by
  refine fun x s => ⟨decode_encode (i := .skp x) rfl, decode_encode (i := .sknp x) rfl, fun h => ⟨?_, ?_⟩,
    fun e w _ h => ⟨?_, ?_⟩⟩
  · exact ⟨_, skipOnKey_of_lt h true, rfl, by rw [State.skipIf_pc, beq_true]⟩
  · refine ⟨_, skipOnKey_of_lt h false, rfl, ?_⟩
    rw [State.skipIf_pc]
    cases s.key[(s.reg x).toNat] <;> rfl
  · exact runInstr_of_raises (i := .skp x) ⟨rfl, h⟩ e
  · exact runInstr_of_raises (i := .sknp x) ⟨rfl, h⟩ e

/-! ## The key wait -/

theorem exec_ldVxK_of_some (x : Reg) {s : State} {k : Key} (h : lowestKey s = some k) :
    exec (.ldVxK x) s = .next (s.setReg x (BitVec.ofNat 8 k.val)) := by
  simp only [exec, execLdVxK, h, writeReg]

theorem exec_ldVxK_of_none (x : Reg) {s : State} (h : lowestKey s = none) :
    exec (.ldVxK x) s = .next { s with pc := s.pc - 2 } := by
  simp only [exec, execLdVxK, h]

/-- Settles O41: `lowestKey_eq_some` and `lowestKey_eq_none` say what the scan finds, and a key number fits in a
byte. -/
theorem waitForKey : Obligations.WaitForKey := by
  refine fun x s => ⟨decode_encode (i := .ldVxK x) rfl, fun k down lowest => ?_, fun up => ?_⟩
  · refine ⟨_, exec_ldVxK_of_some x (lowestKey_eq_some.mpr ⟨down, lowest⟩), ?_, onlyRegs_setReg ..⟩
    rw [State.reg_setReg_same, BitVec.toNat_ofNat, Nat.mod_eq_of_lt (by omega)]
  · exact ⟨_, exec_ldVxK_of_none x (lowestKey_eq_none.mpr up), rfl, rfl⟩

/-! ## The tick -/

/-- A tick takes one from a counter, floored at 0. -/
theorem toNat_tickDown (b : Byte) : (tickDown b).toNat = b.toNat - 1 := by
  unfold tickDown
  split <;> bv_omega

section
variable {e : Rat} {s : State} (h : 1 / 60 ≤ s.acc + e)
include h

theorem tickFires_of_le : tickFires e s = true := decide_eq_true h

theorem toNat_dt_completeCycle_of_le : (completeCycle e s).dt.toNat = s.dt.toNat - 1 := by
  rw [State.completeCycle_dt, if_pos (tickFires_of_le h), toNat_tickDown]

theorem toNat_st_completeCycle_of_le : (completeCycle e s).st.toNat = s.st.toNat - 1 := by
  rw [State.completeCycle_st, if_pos (tickFires_of_le h), toNat_tickDown]

theorem acc_completeCycle_of_le : (completeCycle e s).acc = s.acc + e - 1 / 60 := by
  rw [State.completeCycle_acc, if_pos (tickFires_of_le h), Config.tickPeriod]

end

/-! ## The timer transfers -/

/-- A handler that leaves no fault completes its cycle, from the state it answers. -/
theorem runInstr_of_exec_of_none (e : Rat) {i : Instr} {w : Word} {s t : State} (h : exec i (s.advance w) = .next t)
    (hf : t.fault = none) : runInstr e i w s = .next (completeCycle e t) := by
  simp only [runInstr, h, finishCycle_of_none hf]

/-- Settles O40: each handler is one write, and `completeCycle` ticks from the state it leaves, in which ACC is as
before. -/
theorem timerTransfers : Obligations.TimerTransfers := by
  refine fun x s => ⟨decode_encode (i := .ldVxDt x) rfl, decode_encode (i := .ldDtVx x) rfl,
    decode_encode (i := .ldStVx x) rfl, ⟨_, rfl, State.reg_setReg_same .., onlyRegs_setReg ..⟩, rfl, rfl,
    fun e w hf tick => ⟨?_, ?_, ?_⟩⟩
  · refine ⟨_, runInstr_of_exec_of_none e (i := .ldVxDt x) rfl hf, ?_, toNat_dt_completeCycle_of_le tick⟩
    exact State.reg_setReg_same ..
  · exact ⟨_, runInstr_of_exec_of_none e (i := .ldDtVx x) rfl hf, toNat_dt_completeCycle_of_le tick,
      toNat_st_completeCycle_of_le tick, acc_completeCycle_of_le tick⟩
  · exact ⟨_, runInstr_of_exec_of_none e (i := .ldStVx x) rfl hf, toNat_st_completeCycle_of_le tick,
      toNat_dt_completeCycle_of_le tick, acc_completeCycle_of_le tick⟩

end Sys2Proof.Machine
end

section
/-! PROOFS. Faults and timers seen from the host (60_exceptions R250 to R262): which faults the handlers raise, the
sticky record, the timer check, and what can make a tone edge. -/

namespace Sys2Proof.Machine

/-! ## The handlers' faults -/

/-- Settles O15: a handler keeps FAULT, which is empty, where no condition holds, and records the one that does. -/
theorem handlersRaiseExactlyTheTable : Obligations.HandlersRaiseExactlyTheTable := by
  refine ⟨fun i s t c hf h => ?_, fun i s c d => Raises.unique⟩
  obtain ⟨u, hu, effect⟩ := exec_faultEffect i s
  cases hu.symm.trans h
  cases effect with
  | kept none_raised ht => simp [ht, hf, none_raised c]
  | raised hd =>
    simp only [State.recordFault_fault, Option.map_some, Option.some.injEq]
    exact ⟨fun e => e ▸ hd, hd.unique⟩

/-! ## The recorded fault -/

/-- The `cycle` transaction on a recorded fault answers it and leaves the state (R252). -/
theorem cycleOp_of_fault (e : Rat) {s : State} {r : FaultRecord} (h : s.fault = some r) :
    cycleOp e s = .next (.cycle (.fault r.code), s) := by
  simp only [cycleOp, cycle_of_fault e h]

theorem loadProgram_frame (bytes : List Byte) (s : State) :
    (loadProgram bytes s).2 = { s with mem := (loadProgram bytes s).2.mem } := by
  unfold loadProgram
  split <;> rfl

/-- The operations besides `reset` and `cycle` write memory, the keys and the DirtySet alone (R51 to R57). -/
theorem transact_frame {op : HostOp} {rep : HostReply} {s t : State} (h : transact op s = .next (rep, t))
    (notReset : op ≠ .reset) (notCycle : ∀ e, op ≠ .cycle e) :
    t = { s with mem := t.mem, key := t.key, dirty := t.dirty } := by
  cases op with
  | reset => exact absurd rfl notReset
  | cycle e => exact absurd rfl (notCycle e)
  | loadProgram bytes =>
    cases h
    rw [loadProgram_frame]
  | setKey k pressed =>
    simp only [transact] at h
    split at h <;> cases h
    rfl
  | readPixel x y =>
    simp only [transact] at h
    split at h <;> cases h
    rfl
  | drainDirty | toneActive | snapshot =>
    cases h
    rfl

/-- Settles O14: `cycleOp_of_fault` is the cycle, `transact_frame` leaves the record, and only a key number or a pixel
out of range is refused. -/
theorem faultRecordIsSticky : Obligations.FaultRecordIsSticky := by
  refine fun s r hf => ⟨fun e => cycleOp_of_fault e hf, fun op rep t h notReset => ?_, fun op notCycle key pixel => ?_,
    resetOp s, rfl, rfl⟩
  · by_cases isCycle : ∃ e, op = .cycle e
    · obtain ⟨e, rfl⟩ := isCycle
      cases (cycleOp_of_fault e hf).symm.trans h
      exact hf
    · rw [transact_frame h notReset (not_exists.mp isCycle)]
      exact hf
  · cases op with
    | cycle e => exact absurd rfl (notCycle e)
    | setKey k pressed => exact ⟨_, _, dif_pos (key k pressed rfl)⟩
    | readPixel x y => exact ⟨_, _, dif_pos (pixel x y rfl)⟩
    | _ => exact ⟨_, _, rfl⟩

/-! ## The timer check -/

theorem tickFires_eq_false_of_lt {e : Rat} {s : State} (h : s.acc + e < 1 / 60) : tickFires e s = false :=
  decide_eq_false (not_le_of_gt h)

/-- Settles O42: `completeCycle` is the timer check and a count, so its tick is the one already read off; a rejected
cycle changes FAULT alone. -/
theorem timerTick : Obligations.TimerTick := by
  refine fun e s => ⟨fun tick => ⟨toNat_dt_completeCycle_of_le tick, toNat_st_completeCycle_of_le tick,
    acc_completeCycle_of_le tick⟩, fun noTick => ?_, fun t h faulted => ?_, rfl⟩
  · simp [tickFires_eq_false_of_lt noTick]
  · obtain ⟨r, hr⟩ := Option.ne_none_iff_exists'.mp faulted
    rw [(rejectedCycleChangesOnlyFault e s t r h hr).1]
    exact ⟨rfl, rfl, rfl⟩

/-! ## The tone -/

theorem toneActive_eq_true {s : State} : toneActive s = true ↔ s.st ≠ 0 :=
  decide_eq_true_iff.trans (by bv_omega)

theorem toneActive_eq_false {s : State} : toneActive s = false ↔ s.st = 0 := by
  rw [← Bool.not_eq_true, toneActive_eq_true, not_ne_iff]

theorem toneEdge_eq_on {s t : State} : toneEdge s t = some .on ↔ s.st = 0 ∧ t.st ≠ 0 := by
  rw [← toneActive_eq_false, ← toneActive_eq_true, toneEdge]
  cases toneActive s <;> cases toneActive t <;> simp

theorem toneEdge_eq_off {s t : State} : toneEdge s t = some .off ↔ s.st ≠ 0 ∧ t.st = 0 := by
  rw [← toneActive_eq_true, ← toneActive_eq_false, toneEdge]
  cases toneActive s <;> cases toneActive t <;> simp

/-- The fetched instruction of the cycle is FX18 with `V[x] = b`. -/
def LoadsSoundTimer (s : State) (b : Byte) : Prop :=
  ∃ w x, fetchWord s = some w ∧ decode w = .ldStVx x ∧ s.reg x = b

/-- A handler leaves ST, or is FX18 and loads it. -/
theorem st_of_exec {s u : State} {w : Word} (hw : fetchWord s = some w)
    (hu : exec (decode w) (s.advance w) = .next u) : u.st = s.st ∨ LoadsSoundTimer s u.st := by
  by_cases load : ∃ x, decode w = .ldStVx x
  · obtain ⟨x, hx⟩ := load
    rw [hx] at hu
    cases hu
    exact .inr ⟨w, x, hw, hx, rfl⟩
  · exact .inl ((HandlerEffect.of_exec hu).st_eq (not_exists.mp load))

/-- ST over a cycle: the handler leaves it or loads it, and a tick may follow. -/
theorem st_of_cycle {e : Rat} {s t : State} (h : cycle e s = .next t) :
    ∃ b, (b = s.st ∨ LoadsSoundTimer s b) ∧ (t.st = b ∨ tickFires e s = true ∧ t.st = tickDown b) := by
  rcases cycle_cases e s with ⟨_, _, hc⟩ | ⟨_, _, hc⟩ | ⟨w, u, _, hw, hu, hc⟩
  · cases hc.symm.trans h
  · cases hc.symm.trans h
    exact ⟨s.st, .inl rfl, .inl rfl⟩
  · cases hc.symm.trans h
    cases hf : u.fault with
    | some r =>
      rw [finishCycle_of_fault hf]
      exact ⟨s.st, .inl rfl, .inl rfl⟩
    | none =>
      have sameTick : tickFires e u = tickFires e s := by
        rw [tickFires, (HandlerEffect.of_exec hu).acc_eq]
        rfl
      rw [finishCycle_of_none hf, State.completeCycle_st, sameTick]
      refine ⟨u.st, st_of_exec hw hu, ?_⟩
      split
      · exact .inr ⟨‹_›, rfl⟩
      · exact .inl rfl

/-- A cycle that puts the tone on loads ST: a tick leaves 0 at 0. -/
theorem loadsSoundTimer_of_on {e : Rat} {s t : State} (h : cycle e s = .next t) (silent : s.st = 0)
    (sounds : t.st ≠ 0) : ∃ b, b ≠ 0 ∧ LoadsSoundTimer s b := by
  obtain ⟨b, left, after⟩ := st_of_cycle h
  have loaded : b ≠ 0 := by
    rintro rfl
    rcases after with zero | ⟨_, zero⟩ <;> exact sounds zero
  rcases left with rfl | loads
  · exact absurd silent loaded
  · exact ⟨b, loaded, loads⟩

/-- A cycle that puts the tone off ticks, or it loads 0. -/
theorem tickFires_or_loadsSoundTimer_of_off {e : Rat} {s t : State} (h : cycle e s = .next t) (sounds : s.st ≠ 0)
    (silent : t.st = 0) : tickFires e s = true ∨ LoadsSoundTimer s 0 := by
  obtain ⟨b, left, rfl | ⟨tick, _⟩⟩ := st_of_cycle h
  · rw [silent] at left
    exact .inr (left.resolve_left sounds.symm)
  · exact .inl tick

/-- The `cycle` transaction leaves the state or is a cycle. -/
theorem cycleOp_cases {e : Rat} {rep : HostReply} {s t : State} (h : cycleOp e s = .next (rep, t)) :
    t = s ∨ cycle e s = .next t := by
  unfold cycleOp at h
  split at h
  · rename_i hu
    cases h
    exact .inr hu
  · cases h
    exact .inl rfl
  · cases h

/-- The transactions that can change ST: a reset, or a cycle. -/
theorem reset_or_cycle_of_st_ne {op : HostOp} {rep : HostReply} {s t : State} (h : transact op s = .next (rep, t))
    (changed : t.st ≠ s.st) : (op = .reset ∧ t = resetOp s) ∨ ∃ e, op = .cycle e ∧ cycle e s = .next t := by
  by_cases isReset : op = .reset
  · subst isReset
    cases h
    exact .inl ⟨rfl, rfl⟩
  · by_cases isCycle : ∃ e, op = .cycle e
    · obtain ⟨e, rfl⟩ := isCycle
      rcases cycleOp_cases h with rfl | hc
      · exact absurd rfl changed
      · exact .inr ⟨e, rfl, hc⟩
    · rw [transact_frame h isReset (not_exists.mp isCycle)] at changed
      exact absurd rfl changed

/-- Settles O59: an edge is a change of ST, so the transaction is a reset, which puts no tone on, or a cycle. -/
theorem toneEdgeCauses : Obligations.ToneEdgeCauses := by
  intro op rep s t h
  refine ⟨fun edge => ?_, fun edge => ?_⟩
  · obtain ⟨silent, sounds⟩ := toneEdge_eq_on.mp edge
    rcases reset_or_cycle_of_st_ne h (by rwa [silent]) with ⟨_, rfl⟩ | ⟨e, rfl, hc⟩
    · exact absurd rfl sounds
    · obtain ⟨_, loaded, w, x, hw, hx, rfl⟩ := loadsSoundTimer_of_on hc silent sounds
      exact ⟨e, w, x, rfl, hw, hx, by bv_omega⟩
  · obtain ⟨sounds, silent⟩ := toneEdge_eq_off.mp edge
    rcases reset_or_cycle_of_st_ne h (by rw [silent]; exact sounds.symm) with ⟨reset, _⟩ | ⟨e, rfl, hc⟩
    · exact .inl reset
    · exact .inr ⟨e, rfl, tickFires_or_loadsSoundTimer_of_off hc sounds silent⟩

end Sys2Proof.Machine
end

section
/-! PROOFS. The end of a run (70_reset_and_hazards R291): a jump to itself brings pc back, so its cycle is CUR and the
timer check alone. -/

namespace Sys2Proof.Machine

/-- A jump to the address it stands at undoes step 5's advance of pc, and leaves CUR alone changed. -/
theorem exec_jp_advance_of_self {s : State} {nnn : Addr12} (self : zext16 nnn = s.pc) (w : Word) :
    exec (.jp nnn) (s.advance w) = .next { s with cur := w } := by
  simp only [exec, execJp, self]
  rfl

/-- Settles O51: the cycle completes from the parked state with the jump's word in CUR, and the timer check leaves pc
and memory, so the jump is fetched again. -/
theorem parkedStaysParked : Obligations.ParkedStaysParked := by
  rintro s ⟨hf, nnn, hw, self⟩
  exact ⟨_, cycle_of_exec_of_none _ rfl hf hw (exec_jp_advance_of_self self _) hf, ⟨hf, nnn, hw, self⟩, rfl⟩

end Sys2Proof.Machine
end
